-- ==== Sys2Proof/Config.lean ====
section
/-! DEFINITION. The implementation parameters of 00_scope.md R7 and R8. The spec leaves no result of an
instruction open, so there is no free value here. -/

namespace Sys2Proof

/-- Number of general registers (R7). -/
def Config.numRegs : Nat := 8

/-- Number of data-memory cells, addresses 0 to 63 (R7, R60). -/
def Config.numCells : Nat := 64

/-- Program capacity MAX_PROG_LEN. DESIGN CHOICE (log entry 5): R8's default 255, where R8 also allows a
smaller argument. -/
def Config.maxProgLen : Nat := 255

end Sys2Proof
end

