-- ==== Sys2Proof/Word.lean ====
section
/-! DEFINITION. The word types of 00_scope.md R7, R8 and R9. All are unsigned unless a rule says otherwise. -/

namespace Sys2Proof

/-- A register, memory cell, bus, pc, PLEN, MAR or MDR value (R7, R8). -/
abbrev Byte := BitVec 8

/-- An instruction word (R8, R90). -/
abbrev Word := BitVec 16

/-- A register index, the 3-bit fields `ra`, `rb`, `rc` (R93, R94). -/
abbrev Reg := BitVec 3

/-- A data-memory address, the 6-bit field `addr6` (R93, R95). -/
abbrev Addr := BitVec 6

/-- A line number, the 8-bit field `line8` and the pc (R33, R93, R97). -/
abbrev Line := BitVec 8

end Sys2Proof
end

