-- ==== Sys2Proof/Syntax.lean ====
section
/-! DEFINITION. The instructions: one constructor per row of spec/opcode_table.json (30_encoding.md R91, R117),
operands under the source's names (00_scope.md R11). -/

namespace Sys2Proof

inductive Instr
  | load (rx : Reg) (val : Byte)
  | store (rx : Reg) (addr : Addr)
  | mov (rd rs : Reg)
  | add (rd rs1 rs2 : Reg)
  | sub (rd rs1 rs2 : Reg)
  | mul (rd rs1 rs2 : Reg)
  | inc (rx : Reg)
  | dec (rx : Reg)
  | cmp (rx ry : Reg)
  | jmp (line : Line)
  | jz (line : Line)
  | jnz (line : Line)
  | jc (line : Line)
  | jn (line : Line)
  | nop
deriving DecidableEq, Repr

end Sys2Proof
end

