-- ==== Sys2Proof/WellFormed.lean ====
section
/-! DEFINITION. Well-formedness. Register indices, immediates and addresses are in range by their types (R94, R95,
R96); what is left to check is that a jump target is a line of the program (R101, R116) and that a program fits the
capacity (R8, R119). -/

namespace Sys2Proof

/-- The jump target of a J-format instruction (R97, R117). -/
def Instr.target? : Instr → Option Line
  | .load _ _ => none
  | .store _ _ => none
  | .mov _ _ => none
  | .add _ _ _ => none
  | .sub _ _ _ => none
  | .mul _ _ _ => none
  | .inc _ => none
  | .dec _ => none
  | .cmp _ _ => none
  | .jmp line => some line
  | .jz line => some line
  | .jnz line => some line
  | .jc line => some line
  | .jn line => some line
  | .nop => none

/-- Legal in a program of `plen` instructions: a jump target is below `plen` (R101, R116, R200). -/
def Instr.wellFormedFor (plen : Byte) (i : Instr) : Bool :=
  match i.target? with
  | some line => decide (line < plen)
  | none => true

/-- Legal in some program: no program can reach line 255, since PLEN is at most 255 (R8, R101). -/
def Instr.wellFormed (i : Instr) : Bool := i.wellFormedFor (BitVec.ofNat 8 Config.maxProgLen)

/-- A program that the assembler may hand to the core: it fits the capacity (R8, R119) and every jump target is one of
its lines (R116). -/
def programWellFormed (p : List Instr) : Bool :=
  decide (p.length ≤ Config.maxProgLen) && p.all (Instr.wellFormedFor (BitVec.ofNat 8 p.length))

end Sys2Proof
end

