-- ==== Sys2Proof/Decode.lean ====
section
/-! DEFINITION. The instruction word of 30_encoding.md sections 1 to 3: fields, opcode map, formats, match and mask rows,
the decoder (total; an illegal word is rejected by its cause), and after it the encoder of R118. -/

namespace Sys2Proof

/-- The causes of an illegal word (R100, R101; 60_exceptions.md R220). -/
inductive Cause
  | illegalOpcode
  | reservedBits
  | badTarget
deriving DecidableEq, Repr

/-- The mnemonics of R91. -/
inductive Mnemonic
  | load | store | mov | add | sub | mul | inc | dec | cmp | jmp | jz | jnz | jc | jn | nop
deriving DecidableEq, Repr

/-- The seven formats of R92. -/
inductive Format
  | ri | rm | rr | rrr | r | j | n
deriving DecidableEq, Repr

/-! ### Fields (R93) -/

def opOf (w : Word) : BitVec 4 := w.extractLsb' 12 4
def raOf (w : Word) : Reg := w.extractLsb' 9 3
def rbOf (w : Word) : Reg := w.extractLsb' 6 3
def rcOf (w : Word) : Reg := w.extractLsb' 3 3
def imm8Of (w : Word) : Byte := w.extractLsb' 0 8
def addr6Of (w : Word) : Addr := w.extractLsb' 0 6
def line8Of (w : Word) : Line := w.extractLsb' 0 8

/-! ### Opcode map, formats, rows (R91, R92, R98, R99) -/

/-- Every mnemonic, in the order of R91. -/
def Mnemonic.all : List Mnemonic :=
  [.load, .store, .mov, .add, .sub, .mul, .inc, .dec, .cmp, .jmp, .jz, .jnz, .jc, .jn, .nop]

/-- The opcode field of each mnemonic (R91). -/
def Mnemonic.opcode : Mnemonic → BitVec 4
  | .load => 0x0
  | .store => 0x1
  | .mov => 0x2
  | .add => 0x3
  | .sub => 0x4
  | .mul => 0x5
  | .inc => 0x6
  | .dec => 0x7
  | .cmp => 0x8
  | .jmp => 0x9
  | .jz => 0xA
  | .jnz => 0xB
  | .jc => 0xC
  | .jn => 0xD
  | .nop => 0xE

/-- The format of each mnemonic (R91, R92). -/
def Mnemonic.format : Mnemonic → Format
  | .load => .ri
  | .store => .rm
  | .mov => .rr
  | .add => .rrr
  | .sub => .rrr
  | .mul => .rrr
  | .inc => .r
  | .dec => .r
  | .cmp => .rr
  | .jmp => .j
  | .jz => .j
  | .jnz => .j
  | .jc => .j
  | .jn => .j
  | .nop => .n

/-- The bits of `w[11:0]` that must be zero (R98). -/
def Format.reservedMask : Format → Word
  | .ri => 0x0100
  | .rm => 0x01C0
  | .rr => 0x003F
  | .rrr => 0x0007
  | .r => 0x01FF
  | .j => 0x0F00
  | .n => 0x0FFF

/-- `match_m = op_m << 12` (R99). -/
def Mnemonic.matchBits (m : Mnemonic) : Word := m.opcode.setWidth 16 <<< 12

/-- `mask_m = 0xF000 OR reserved_mask(format_m)` (R99). -/
def Mnemonic.maskBits (m : Mnemonic) : Word := 0xF000 ||| m.format.reservedMask

/-- `w` encodes mnemonic `m` exactly when `(w AND mask_m) = match_m` (R99). -/
def Mnemonic.encodedBy (m : Mnemonic) (w : Word) : Bool := decide (w &&& m.maskBits = m.matchBits)

/-- The mnemonic an opcode field selects; none for the reserved opcode 15 (R91). -/
def mnemonicOf (op : BitVec 4) : Option Mnemonic :=
  match op.toNat with
  | 0 => some .load
  | 1 => some .store
  | 2 => some .mov
  | 3 => some .add
  | 4 => some .sub
  | 5 => some .mul
  | 6 => some .inc
  | 7 => some .dec
  | 8 => some .cmp
  | 9 => some .jmp
  | 10 => some .jz
  | 11 => some .jnz
  | 12 => some .jc
  | 13 => some .jn
  | 14 => some .nop
  | _ => none

/-! ### Decoder (R100, R101, R102, R134, R224) -/

/-- The instruction of mnemonic `m` with the fields of `w` (R92, R93). -/
def Mnemonic.withFields (m : Mnemonic) (w : Word) : Instr :=
  match m with
  | .load => .load (raOf w) (imm8Of w)
  | .store => .store (raOf w) (addr6Of w)
  | .mov => .mov (raOf w) (rbOf w)
  | .add => .add (raOf w) (rbOf w) (rcOf w)
  | .sub => .sub (raOf w) (rbOf w) (rcOf w)
  | .mul => .mul (raOf w) (rbOf w) (rcOf w)
  | .inc => .inc (raOf w)
  | .dec => .dec (raOf w)
  | .cmp => .cmp (raOf w) (rbOf w)
  | .jmp => .jmp (line8Of w)
  | .jz => .jz (line8Of w)
  | .jnz => .jnz (line8Of w)
  | .jc => .jc (line8Of w)
  | .jn => .jn (line8Of w)
  | .nop => .nop

/-- The checks of R100 on a word alone: opcode first, then reserved bits (the order of R224). -/
def decodeWord (w : Word) : Except Cause Instr :=
  match mnemonicOf (opOf w) with
  | none => .error .illegalOpcode
  | some m => if w &&& m.format.reservedMask = 0 then .ok (m.withFields w) else .error .reservedBits

/-- `decode(w, PLEN)` (R102): the checks of R100, then the jump-target check of R101, made whether or not the jump would
be taken. -/
def decode (w : Word) (plen : Byte) : Except Cause Instr :=
  match decodeWord w with
  | .error c => .error c
  | .ok i => if i.wellFormedFor plen then .ok i else .error .badTarget

/-! ### Encoder (R118) -/

/-- The mnemonic of an instruction (R117). -/
def Instr.mnemonic : Instr → Mnemonic
  | .load _ _ => .load
  | .store _ _ => .store
  | .mov _ _ => .mov
  | .add _ _ _ => .add
  | .sub _ _ _ => .sub
  | .mul _ _ _ => .mul
  | .inc _ => .inc
  | .dec _ => .dec
  | .cmp _ _ => .cmp
  | .jmp _ => .jmp
  | .jz _ => .jz
  | .jnz _ => .jnz
  | .jc _ => .jc
  | .jn _ => .jn
  | .nop => .nop

/-- The word of an instruction, as R118 builds it. -/
def encode : Instr → Word
  | .load rx val => 0x0 <<< 12 ||| rx.setWidth 16 <<< 9 ||| val.setWidth 16
  | .store rx addr => 0x1 <<< 12 ||| rx.setWidth 16 <<< 9 ||| addr.setWidth 16
  | .mov rd rs => 0x2 <<< 12 ||| rd.setWidth 16 <<< 9 ||| rs.setWidth 16 <<< 6
  | .add rd rs1 rs2 => 0x3 <<< 12 ||| rd.setWidth 16 <<< 9 ||| rs1.setWidth 16 <<< 6 ||| rs2.setWidth 16 <<< 3
  | .sub rd rs1 rs2 => 0x4 <<< 12 ||| rd.setWidth 16 <<< 9 ||| rs1.setWidth 16 <<< 6 ||| rs2.setWidth 16 <<< 3
  | .mul rd rs1 rs2 => 0x5 <<< 12 ||| rd.setWidth 16 <<< 9 ||| rs1.setWidth 16 <<< 6 ||| rs2.setWidth 16 <<< 3
  | .inc rx => 0x6 <<< 12 ||| rx.setWidth 16 <<< 9
  | .dec rx => 0x7 <<< 12 ||| rx.setWidth 16 <<< 9
  | .cmp rx ry => 0x8 <<< 12 ||| rx.setWidth 16 <<< 9 ||| ry.setWidth 16 <<< 6
  | .jmp line => 0x9 <<< 12 ||| line.setWidth 16
  | .jz line => 0xA <<< 12 ||| line.setWidth 16
  | .jnz line => 0xB <<< 12 ||| line.setWidth 16
  | .jc line => 0xC <<< 12 ||| line.setWidth 16
  | .jn line => 0xD <<< 12 ||| line.setWidth 16
  | .nop => 0xE000

/-! ### Serialised program image (R67) -/

/-- A word as two bytes, most significant first (R67). -/
def wordBytes (w : Word) : List Byte := [w.extractLsb' 8 8, w.extractLsb' 0 8]

/-- A program image: each word's bytes, most significant first, in line order (R67). -/
def programImage (ws : List Word) : List Byte := ws.flatMap wordBytes

/-- The words of a program image; none for an odd number of bytes. DESIGN CHOICE (log entry 20). -/
def imageWords : List Byte → Option (List Word)
  | [] => some []
  | [_] => none
  | hi :: lo :: rest => (imageWords rest).map ((hi.setWidth 16 <<< 8 ||| lo.setWidth 16) :: ·)

/-! ### The table's numbering -/

/-- The word whose bits are `w` as spec/opcode_table.json numbers them, every bit from `nbits` up being 0. -/
def tableWord (nbits w : Nat) : Word := BitVec.ofNat 16 (w % 2 ^ nbits)

/-- What the decoder reads from a table row's word. No program length is given, so the check of R101 is left to `decode`.
DESIGN CHOICE (log entry 8). -/
def decodeTableWord (nbits w : Nat) : Option Instr :=
  match decodeWord (tableWord nbits w) with
  | .ok i => some i
  | .error _ => none

end Sys2Proof
end

