-- ==== Sys2Proof/Machine/State.lean ====
section
/-! DEFINITION. The state of the core: the tuple S of 10_state.md R51 (`ArchState`) with the configuration (IMEM, PLEN)
of R47 and R48, the faults and refusals of a step, and the state after reset (R53, R250). -/

namespace Sys2Proof.Machine

/-- The data memory: the cells that do not hold 0, addresses strictly rising (R60; canonical form `Memory.wf`). -/
abbrev Memory := List Host.Cell

/-- The instruction store: the lines that do not hold the word 0x0000, line numbers strictly rising (R48, R66). -/
abbrev ProgramStore := List (Nat × Word)

/-- The codes of the Control Bus tag latch (R45). -/
inductive BusTag
  | idle
  | fetch
  | imm
  | memwr
deriving DecidableEq, Repr

/-- The four independent flags (R39). -/
structure Flags where
  z : Bool
  n : Bool
  c : Bool
  v : Bool
deriving DecidableEq, Repr

/-- The tuple S of R51, the state that a step reads and writes. -/
structure ArchState where
  regs  : Vector Byte 8
  mem   : Memory
  pc    : Line
  ir    : Word
  mar   : Byte
  mdr   : Byte
  flags : Flags
  abus  : Byte
  dbus  : Byte
  cbus  : BusTag
deriving DecidableEq, Repr

/-- The whole machine: S and the configuration, the instruction store IMEM (R48) and the program length PLEN (R47). -/
structure State extends ArchState where
  imem : ProgramStore
  plen : Byte
deriving DecidableEq, Repr

/-- The reasons a step stops. -/
inductive Fault
  /-- ExecutionError (60_exceptions.md R220), raised by the decode of a step for an illegal word, with its cause. The spec's
  own end of that step: no state is written (R221) and the host sees the cause. Safe. -/
  | executionError (cause : Cause)
deriving DecidableEq, Repr

/-- The reasons a step has no meaning. -/
inductive Refusal
  /-- Raised by an arm of `exec` whose instruction has no meaning yet; no arm raises it now. Safe. -/
  | notModelled (mnemonic : String)
deriving DecidableEq, Repr

/-- The reset value of S (R53). -/
def ArchState.reset : ArchState where
  regs := Vector.replicate 8 0
  mem := []
  pc := 0
  ir := 0
  mar := 0
  mdr := 0
  flags := { z := false, n := false, c := false, v := false }
  abus := 0
  dbus := 0
  cbus := .idle

/-- The machine right after reset with no program loaded. Reset does not write IMEM and PLEN (R47, R53). DESIGN CHOICE (log
entry 3): here PLEN is 0 and no line is loaded. -/
def State.reset : State :=
  { ArchState.reset with
    imem := []
    plen := 0 }

end Sys2Proof.Machine
end

