-- ==== Sys2Proof/Machine/Ops.lean ====
section
/-! DEFINITION. The named operations over memory, registers, latches and the pc; fetching; raising ExecutionError. -/

namespace Sys2Proof.Machine

/-! ### Sparse stores in canonical form -/

/-- The value at a place: 0 where nothing is listed. -/
def cellsRead {w : Nat} : List (Nat × BitVec w) → Nat → BitVec w
  | [], _ => 0#w
  | (k, v) :: rest, a => if k = a then v else cellsRead rest a

/-- Removes every entry of a place. -/
def cellsErase {w : Nat} : List (Nat × BitVec w) → Nat → List (Nat × BitVec w)
  | [], _ => []
  | (k, v) :: rest, a => if k = a then cellsErase rest a else (k, v) :: cellsErase rest a

/-- Puts an entry in its place by address. -/
def cellsInsert {w : Nat} : List (Nat × BitVec w) → Nat → BitVec w → List (Nat × BitVec w)
  | [], a, v => [(a, v)]
  | (k, u) :: rest, a, v => if k < a then (k, u) :: cellsInsert rest a v else (a, v) :: (k, u) :: rest

/-- Writes one place and keeps the canonical form: 0 is what an unlisted place reads as, so it gets no entry. -/
def cellsWrite {w : Nat} (m : List (Nat × BitVec w)) (a : Nat) (v : BitVec w) : List (Nat × BitVec w) :=
  if v = 0#w then cellsErase m a else cellsInsert (cellsErase m a) a v

/-- Places strictly rising from `lo` up and below `hi`, no entry 0. -/
def cellsCanonical {w : Nat} (lo hi : Nat) : List (Nat × BitVec w) → Bool
  | [] => true
  | (k, v) :: rest => decide (lo ≤ k) && decide (k < hi) && decide (v ≠ 0#w) && cellsCanonical (k + 1) hi rest

/-! ### Data memory (20_memory.md R60, R61, R63) -/

/-- `MemRead(a, 1) = M[a]` (R63). -/
def Memory.read (m : Memory) (a : Addr) : Byte := cellsRead m a.toNat

/-- `MemWrite(a, 1, v)` (00_scope.md R10). -/
def Memory.write (m : Memory) (a : Addr) (v : Byte) : Memory := cellsWrite m a.toNat v

/-- The canonical form of the data memory. -/
def Memory.wf (m : Memory) : Bool := cellsCanonical 0 Config.numCells m

/-! ### Instruction store (20_memory.md R66, R70) -/

/-- `IMEM[l]` (00_scope.md R10). -/
def ProgramStore.read (p : ProgramStore) (l : Nat) : Word := cellsRead p l

/-- Writes one line, as program load does (R70). -/
def ProgramStore.write (p : ProgramStore) (l : Nat) (w : Word) : ProgramStore := cellsWrite p l w

/-- Writes consecutive lines from `l` up (R70). -/
def ProgramStore.writeAll (p : ProgramStore) (l : Nat) : List Word → ProgramStore
  | [] => p
  | w :: ws => ProgramStore.writeAll (p.write l w) (l + 1) ws

/-- The canonical form of the instruction store. -/
def ProgramStore.wf (p : ProgramStore) : Bool := cellsCanonical 0 Config.maxProgLen p

/-! ### Registers, flags and pc -/

/-- `x[r]` (R30): no register is hardwired, so this is the stored value. -/
def State.readReg (s : State) (r : Reg) : Byte := s.regs[r.toNat]'(r.isLt)

/-- `x[r] <- v`. -/
def State.writeReg (s : State) (r : Reg) (v : Byte) : State := { s with regs := s.regs.set r.toNat v r.isLt }

/-- `Z, N, C, V <- f` (40_step.md R138). -/
def State.setFlags (s : State) (f : Flags) : State := { s with flags := f }

/-- `pc <- t`. -/
def State.setPc (s : State) (t : Line) : State := { s with pc := t }

/-- `pc <- pc + 1` (40_step.md R139). It never wraps in a step (10_state.md R35). -/
def State.advance (s : State) : State := s.setPc (s.pc + 1)

/-- The pc update of a jump: the target if taken, else `pc + 1` (43_control.md R201). -/
def State.branch (s : State) (taken : Bool) (line : Line) : State := s.setPc (if taken then line else s.pc + 1)

/-! ### Latches -/

/-- The fetch side effects of 40_step.md R135: IR takes the word, ABUS the pc, CBUS the tag FETCH. -/
def State.latchFetch (s : State) (w : Word) : State := { s with ir := w, abus := s.pc, cbus := .fetch }

/-- LOAD drives its immediate onto the Data Bus (41_data_transfer.md R160). -/
def State.driveImm (s : State) (v : Byte) : State := { s with dbus := v, cbus := .imm }

/-- The staged memory write of STORE (41_data_transfer.md R161): MAR, MDR, the cell, and the three buses. -/
def State.storeByte (s : State) (a : Addr) (v : Byte) : State :=
  { s with
    mar := a.setWidth 8
    mdr := v
    mem := s.mem.write a v
    abus := a.setWidth 8
    dbus := v
    cbus := .memwr }

/-! ### Halting, fetching, ExecutionError -/

/-- Halted exactly when `pc ≥ PLEN` (R50, 40_step.md R131). -/
def State.halted (s : State) : Bool := decide (s.plen ≤ s.pc)

/-- The word that the step fetches, `IMEM[pc]` (40_step.md R133). -/
def State.fetchWord (s : State) : Word := s.imem.read s.pc.toNat

/-- `raise ExecutionError(cause)` (00_scope.md R10, 60_exceptions.md R220, R221): the one exception. It writes no state,
saves nothing and vectors nowhere (R226), and there is no return from it (R227). -/
def raiseExecutionError (c : Cause) : Host.Outcome State Fault Refusal := .fault (.executionError c)

/-- The state with `w` on the line that the next step fetches, the program being as long as a program can be, so that any
jump target of a program passes decode. At pc 255 no program has a line to fetch, so the pc goes to line 0. DESIGN CHOICE
(log entry 7). -/
def State.placeNext (s : State) (w : Word) : State :=
  let line : Line := if s.pc = 255 then 0 else s.pc
  { s with
    pc := line
    imem := s.imem.write line.toNat w
    plen := BitVec.ofNat 8 Config.maxProgLen }

end Sys2Proof.Machine
end

