-- ==== Sys2Proof/Machine/Operands.lean ====
section
/-! DEFINITION. The operand forms of 30_encoding.md section 2: register, immediate, memory address, line, and the constant 1
of INC and DEC. Every operand is unsigned and is read from the state before the step's writes (40_step.md R137). -/

namespace Sys2Proof.Machine

/-- A register operand: the value of `x[r]` (R31). -/
def regOperand (s : State) (r : Reg) : Byte := s.readReg r

/-- An immediate operand, used as is (R96). -/
def immOperand (v : Byte) : Byte := v

/-- The "1-as-immediate" of INC and DEC (42_alu.md R183, R184). -/
def oneOperand : Byte := 1

/-- The effective address of STORE: the field itself (20_memory.md R62). -/
def storeAddress (a : Addr) : Addr := a

end Sys2Proof.Machine
end

