-- ==== Sys2Proof/Machine/Flags.lean ====
section
/-! DEFINITION. The ALU and its flag rules (42_alu.md R170 to R176): exact arithmetic, then truncation. -/

namespace Sys2Proof.Machine

/-- The operations of the ALU (R171). -/
inductive AluOp
  | add
  | sub
  | mul
deriving DecidableEq, Repr

/-- What the ALU answers: the truncated result and the four flags (R171). -/
structure AluOut where
  y : Byte
  flags : Flags
deriving DecidableEq, Repr

/-- `s8(v)`, the two's-complement reading (00_scope.md R9). -/
def s8 (v : Byte) : Int := if v.toNat < 128 then v.toNat else (v.toNat : Int) - 256

/-- The exact result of an operation, an unbounded integer (R170, R171). -/
def AluOp.exact (op : AluOp) (a b : Byte) : Int :=
  match op with
  | .add => (a.toNat : Int) + b.toNat
  | .sub => (a.toNat : Int) - b.toNat
  | .mul => (a.toNat : Int) * b.toNat

/-- Zero, of the truncated result (R172). -/
def zeroFlag (y : Byte) : Bool := decide (y = 0)

/-- Negative, bit 7 of the truncated result (R173). -/
def negativeFlag (y : Byte) : Bool := y.getLsbD 7

/-- Carry: the exact result exceeds 255, or for SUB the minuend is less than the subtrahend (R174). -/
def carryFlag (op : AluOp) (a b : Byte) : Bool :=
  match op with
  | .add => decide (AluOp.exact .add a b > 255)
  | .sub => decide (a.toNat < b.toNat)
  | .mul => decide (AluOp.exact .mul a b > 255)

/-- Overflow, by the sign-bit tests of R171 for ADD and SUB, and by the size of the product for MUL (R175, R176). -/
def overflowFlag (op : AluOp) (a b y : Byte) : Bool :=
  match op with
  | .add => (a.getLsbD 7 == b.getLsbD 7) && (y.getLsbD 7 != a.getLsbD 7)
  | .sub => (a.getLsbD 7 != b.getLsbD 7) && (y.getLsbD 7 != a.getLsbD 7)
  | .mul => decide (AluOp.exact .mul a b > 255)

/-- `alu(op, a, b) -> (y, z, n, c, v)` (R171). -/
def alu (op : AluOp) (a b : Byte) : AluOut :=
  let y : Byte := BitVec.ofInt 8 (op.exact a b)
  { y := y
    flags := { z := zeroFlag y, n := negativeFlag y, c := carryFlag op a b, v := overflowFlag op a b y } }

end Sys2Proof.Machine
end

