-- ==== Sys2Proof/Machine/Arithmetic.lean ====
section
/-! DEFINITION. ADD, SUB, MUL, INC, DEC and CMP (42_alu.md R180 to R185), over the one ALU of R171. -/

namespace Sys2Proof.Machine

/-- The shared end of an ALU instruction that keeps its result: `x[rd] <- y`, all four flags, `pc <- pc + 1`. -/
def State.commitAlu (s : State) (rd : Reg) (out : AluOut) : State := ((s.writeReg rd out.y).setFlags out.flags).advance

/-- ADD (R180). -/
def execAdd (rd rs1 rs2 : Reg) (s : State) : Host.Outcome State Fault Refusal :=
  .next (s.commitAlu rd (alu .add (regOperand s rs1) (regOperand s rs2)))

/-- SUB (R181). -/
def execSub (rd rs1 rs2 : Reg) (s : State) : Host.Outcome State Fault Refusal :=
  .next (s.commitAlu rd (alu .sub (regOperand s rs1) (regOperand s rs2)))

/-- MUL (R182). -/
def execMul (rd rs1 rs2 : Reg) (s : State) : Host.Outcome State Fault Refusal :=
  .next (s.commitAlu rd (alu .mul (regOperand s rs1) (regOperand s rs2)))

/-- INC (R183): ADD of the constant 1. -/
def execInc (rx : Reg) (s : State) : Host.Outcome State Fault Refusal :=
  .next (s.commitAlu rx (alu .add (regOperand s rx) oneOperand))

/-- DEC (R184): SUB of the constant 1. -/
def execDec (rx : Reg) (s : State) : Host.Outcome State Fault Refusal :=
  .next (s.commitAlu rx (alu .sub (regOperand s rx) oneOperand))

/-- CMP (R185): the flags of SUB, V among them (90_conflicts.md C4); no register is written. -/
def execCmp (rx ry : Reg) (s : State) : Host.Outcome State Fault Refusal :=
  .next (s.setFlags (alu .sub (regOperand s rx) (regOperand s ry)).flags).advance

end Sys2Proof.Machine
end

