-- ==== Sys2Proof/Machine/Control.lean ====
section
/-! DEFINITION. The jumps and NOP (43_control.md R200 to R207). A target at or above PLEN is refused by decode (R101) and so
does not reach a meaning in a step (log entry 6). -/

namespace Sys2Proof.Machine

/-- JMP (R202): always taken. -/
def execJmp (line : Line) (s : State) : Host.Outcome State Fault Refusal := .next (s.branch true line)

/-- JZ (R203): taken if Z. -/
def execJz (line : Line) (s : State) : Host.Outcome State Fault Refusal := .next (s.branch s.flags.z line)

/-- JNZ (R204): taken if not Z. -/
def execJnz (line : Line) (s : State) : Host.Outcome State Fault Refusal := .next (s.branch (!s.flags.z) line)

/-- JC (R205): taken if C. -/
def execJc (line : Line) (s : State) : Host.Outcome State Fault Refusal := .next (s.branch s.flags.c line)

/-- JN (R206): taken if N. -/
def execJn (line : Line) (s : State) : Host.Outcome State Fault Refusal := .next (s.branch s.flags.n line)

/-- NOP (R207): only the pc advances, beside the fetch side effects of every step (90_conflicts.md C6). -/
def execNop (s : State) : Host.Outcome State Fault Refusal := .next s.advance

end Sys2Proof.Machine
end

