-- ==== Sys2Proof/Machine/DataTransfer.lean ====
section
/-! DEFINITION. LOAD, STORE and MOV (41_data_transfer.md R160 to R162). None writes a flag. The fetch side effects of R135
have been latched by the step before a meaning runs. -/

namespace Sys2Proof.Machine

/-- LOAD (R160): an immediate into a register; drives the Data Bus. -/
def execLoad (rx : Reg) (val : Byte) (s : State) : Host.Outcome State Fault Refusal :=
  .next ((s.writeReg rx (immOperand val)).driveImm (immOperand val)).advance

/-- STORE (R161): a register into a data-memory cell, staged through MAR and MDR. -/
def execStore (rx : Reg) (addr : Addr) (s : State) : Host.Outcome State Fault Refusal :=
  .next (s.storeByte (storeAddress addr) (regOperand s rx)).advance

/-- MOV (R162): copies a register. -/
def execMov (rd rs : Reg) (s : State) : Host.Outcome State Fault Refusal :=
  .next (s.writeReg rd (regOperand s rs)).advance

end Sys2Proof.Machine
end

