-- ==== Sys2Proof/Machine/Dispatch.lean ====
section
/-! DEFINITION. The execute dispatch of 40_step.md R136: one arm per instruction. -/

namespace Sys2Proof.Machine

def exec (i : Instr) (s : State) : Host.Outcome State Fault Refusal :=
  match i with
  | .load rx val => Sys2Proof.Machine.execLoad rx val s
  | .store rx addr => Sys2Proof.Machine.execStore rx addr s
  | .mov rd rs => Sys2Proof.Machine.execMov rd rs s
  | .add rd rs1 rs2 => Sys2Proof.Machine.execAdd rd rs1 rs2 s
  | .sub rd rs1 rs2 => Sys2Proof.Machine.execSub rd rs1 rs2 s
  | .mul rd rs1 rs2 => Sys2Proof.Machine.execMul rd rs1 rs2 s
  | .inc rx => Sys2Proof.Machine.execInc rx s
  | .dec rx => Sys2Proof.Machine.execDec rx s
  | .cmp rx ry => Sys2Proof.Machine.execCmp rx ry s
  | .jmp line => Sys2Proof.Machine.execJmp line s
  | .jz line => Sys2Proof.Machine.execJz line s
  | .jnz line => Sys2Proof.Machine.execJnz line s
  | .jc line => Sys2Proof.Machine.execJc line s
  | .jn line => Sys2Proof.Machine.execJn line s
  | .nop => Sys2Proof.Machine.execNop s

end Sys2Proof.Machine
end

