-- ==== Sys2Proof/Machine/Step.lean ====
section
/-! DEFINITION. The step of 40_step.md R143: halt test, fetch, decode, fetch side effects, execute. -/

namespace Sys2Proof.Machine

/-- One step (R130, R143). A halted core's step changes nothing and is no error (R131, R132): a next state. DESIGN CHOICE (log
entry 1). An illegal word raises ExecutionError with nothing written (R134). A legal word has its fetch side effects latched
(R135) and then its execution rule run (R136); no meaning reads what the fetch latches (R36, R46), so this order is the
commit of R140. -/
def step (s : State) : Host.Outcome State Fault Refusal :=
  if s.halted then .next s
  else
    match decode s.fetchWord s.plen with
    | .error c => raiseExecutionError c
    | .ok i => exec i (s.latchFetch s.fetchWord)

/-- `s` with a table row's word where the next step fetches (log entry 7). -/
def State.withFetchWord (s : State) (nbits w : Nat) : State := s.placeNext (tableWord nbits w)

end Sys2Proof.Machine
end

