-- ==== Sys2Proof/Machine/Assembler.lean ====
section
/-! DEFINITION. The assembler syntax of 30_encoding.md section 5 (R110 to R121): lines, tokens, operand shapes, validation
with every error found, and the canonical spelling of disassembly. It runs before the core (00_scope.md R6); source text is
a list of characters. -/

namespace Sys2Proof

/-! ### Lines and tokens (R110, R111) -/

/-- White space inside a line. DESIGN CHOICE (log entry 17): blank, tab, carriage return and line feed. -/
def isSpace (c : Char) : Bool := c.isWhitespace

/-- Cuts a text at every character that `cut` holds of; `n` cuts give `n + 1` pieces. -/
def splitAtEach (cut : Char → Bool) : List Char → List (List Char)
  | [] => [[]]
  | c :: cs =>
    if cut c then [] :: splitAtEach cut cs
    else
      match splitAtEach cut cs with
      | [] => [[c]]
      | piece :: pieces => (c :: piece) :: pieces

/-- Removes white space at both ends. -/
def trim (cs : List Char) : List Char := ((cs.dropWhile isSpace).reverse.dropWhile isSpace).reverse

/-- The text before the first `;` or `#` (R110). -/
def stripComment (cs : List Char) : List Char := cs.takeWhile (fun c => !(c == ';' || c == '#'))

/-- The lines that hold an instruction, in order; the line number is the position in this list (R110). -/
def instructionLines (src : List Char) : List (List Char) :=
  ((splitAtEach (· == '\n') src).map stripComment).filter (fun l => l.any (fun c => !isSpace c))

/-- The opcode token: the first run of characters that are not white space (R111). -/
def opcodeToken (line : List Char) : List Char := (trim line).takeWhile (fun c => !isSpace c)

/-- The operand list: the rest of the line, if not empty, split at commas, white space around each removed (R111). -/
def operandTokens (line : List Char) : List (List Char) :=
  let rest := trim ((trim line).dropWhile (fun c => !isSpace c))
  if rest = [] then [] else (splitAtEach (· == ',') rest).map trim

/-! ### Opcodes and operands (R112 to R116) -/

/-- The upper-case name of a mnemonic (R91). -/
def Mnemonic.name : Mnemonic → List Char
  | .load => ['L', 'O', 'A', 'D']
  | .store => ['S', 'T', 'O', 'R', 'E']
  | .mov => ['M', 'O', 'V']
  | .add => ['A', 'D', 'D']
  | .sub => ['S', 'U', 'B']
  | .mul => ['M', 'U', 'L']
  | .inc => ['I', 'N', 'C']
  | .dec => ['D', 'E', 'C']
  | .cmp => ['C', 'M', 'P']
  | .jmp => ['J', 'M', 'P']
  | .jz => ['J', 'Z']
  | .jnz => ['J', 'N', 'Z']
  | .jc => ['J', 'C']
  | .jn => ['J', 'N']
  | .nop => ['N', 'O', 'P']

/-- The opcode of a token, in any case of its letters (R112). -/
def parseMnemonic (token : List Char) : Option Mnemonic :=
  Mnemonic.all.find? (fun m => m.name == token.map Char.toUpper)

/-- A register token: an upper-case `R` and one digit 0 to 7 (R113). -/
def parseReg : List Char → Option Reg
  | ['R', '0'] => some 0
  | ['R', '1'] => some 1
  | ['R', '2'] => some 2
  | ['R', '3'] => some 3
  | ['R', '4'] => some 4
  | ['R', '5'] => some 5
  | ['R', '6'] => some 6
  | ['R', '7'] => some 7
  | _ => none

/-- The value of one decimal digit. -/
def digitValue (c : Char) : Option Nat :=
  if '0'.toNat ≤ c.toNat ∧ c.toNat ≤ '9'.toNat then some (c.toNat - '0'.toNat) else none

/-- Reads decimal digits after the value `acc` of those before them. -/
def parseDigits (acc : Nat) : List Char → Option Nat
  | [] => some acc
  | c :: cs =>
    match digitValue c with
    | none => none
    | some d => parseDigits (acc * 10 + d) cs

/-- An unsigned decimal integer: one digit or more, leading zeros allowed (R114). -/
def parseDecimal (token : List Char) : Option Nat := if token = [] then none else parseDigits 0 token

/-- The ValidationError kinds (R119). -/
inductive ErrorKind
  | unknownOpcode
  | wrongOperandCount
  | operandRange
  | targetBounds
deriving DecidableEq, Repr

/-- An error with the number of the line it is on, counted among the instruction lines (R110, R119). -/
structure ValidationError where
  line : Nat
  kind : ErrorKind
deriving DecidableEq, Repr

/-- The operand kinds of the shapes in R117. -/
inductive OperandKind
  | reg
  | val
  | addr
  | line
deriving DecidableEq, Repr

/-- The operand shapes of an opcode (R117). -/
def Mnemonic.shapes : Mnemonic → List (List OperandKind)
  | .load => [[.reg, .val]]
  | .store => [[.reg, .addr]]
  | .mov => [[.reg, .reg]]
  | .add => [[.reg, .reg, .reg], [.reg, .reg]]
  | .sub => [[.reg, .reg, .reg], [.reg, .reg]]
  | .mul => [[.reg, .reg, .reg], [.reg, .reg]]
  | .inc => [[.reg]]
  | .dec => [[.reg]]
  | .cmp => [[.reg, .reg]]
  | .jmp => [[.line]]
  | .jz => [[.line]]
  | .jnz => [[.line]]
  | .jc => [[.line]]
  | .jn => [[.line]]
  | .nop => [[]]

/-- An unsigned decimal below `bound` (R114, R115). -/
def parseBelow (bound : Nat) (token : List Char) : Except ErrorKind Nat :=
  match parseDecimal token with
  | none => .error .operandRange
  | some n => if n < bound then .ok n else .error .operandRange

/-- The number an operand token stands for: a register index, an immediate, an address, or a line below the program's
length (R113 to R116). -/
def operandValue (plen : Nat) (kind : OperandKind) (token : List Char) : Except ErrorKind Nat :=
  match kind with
  | .reg =>
    match parseReg token with
    | none => .error .operandRange
    | some r => .ok r.toNat
  | .val => parseBelow 256 token
  | .addr => parseBelow 64 token
  | .line =>
    match parseDecimal token with
    | none => .error .operandRange
    | some n => if n < plen then .ok n else .error .targetBounds

/-- The instruction of an opcode and its operand values (R117); the two-operand forms of ADD, SUB and MUL become the
three-operand ones with `Rs1 = Rd` (R103). -/
def Mnemonic.withOperands (m : Mnemonic) (vs : List Nat) : Option Instr :=
  match m, vs with
  | .load, [x, v] => some (.load (BitVec.ofNat 3 x) (BitVec.ofNat 8 v))
  | .store, [x, a] => some (.store (BitVec.ofNat 3 x) (BitVec.ofNat 6 a))
  | .mov, [d, s] => some (.mov (BitVec.ofNat 3 d) (BitVec.ofNat 3 s))
  | .add, [d, s1, s2] => some (.add (BitVec.ofNat 3 d) (BitVec.ofNat 3 s1) (BitVec.ofNat 3 s2))
  | .add, [d, s] => some (.add (BitVec.ofNat 3 d) (BitVec.ofNat 3 d) (BitVec.ofNat 3 s))
  | .sub, [d, s1, s2] => some (.sub (BitVec.ofNat 3 d) (BitVec.ofNat 3 s1) (BitVec.ofNat 3 s2))
  | .sub, [d, s] => some (.sub (BitVec.ofNat 3 d) (BitVec.ofNat 3 d) (BitVec.ofNat 3 s))
  | .mul, [d, s1, s2] => some (.mul (BitVec.ofNat 3 d) (BitVec.ofNat 3 s1) (BitVec.ofNat 3 s2))
  | .mul, [d, s] => some (.mul (BitVec.ofNat 3 d) (BitVec.ofNat 3 d) (BitVec.ofNat 3 s))
  | .inc, [x] => some (.inc (BitVec.ofNat 3 x))
  | .dec, [x] => some (.dec (BitVec.ofNat 3 x))
  | .cmp, [x, y] => some (.cmp (BitVec.ofNat 3 x) (BitVec.ofNat 3 y))
  | .jmp, [t] => some (.jmp (BitVec.ofNat 8 t))
  | .jz, [t] => some (.jz (BitVec.ofNat 8 t))
  | .jnz, [t] => some (.jnz (BitVec.ofNat 8 t))
  | .jc, [t] => some (.jc (BitVec.ofNat 8 t))
  | .jn, [t] => some (.jn (BitVec.ofNat 8 t))
  | .nop, [] => some .nop
  | _, _ => none

/-! ### Validation and assembly (R117, R119, R120) -/

/-- The errors among parsed operands, and their values where there is none. -/
def collectOperands : List (Except ErrorKind Nat) → List ErrorKind × List Nat
  | [] => ([], [])
  | .ok v :: rest => ((collectOperands rest).1, v :: (collectOperands rest).2)
  | .error e :: rest => (e :: (collectOperands rest).1, (collectOperands rest).2)

/-- One instruction line, against the number of instruction lines of the source (R116, R117): the instruction, or every
error of the line, each kind once. DESIGN CHOICE for the order and for naming a kind once (log entry 18). DESIGN CHOICE (log
entry 22): with an unknown opcode, or an operand count that fits no shape of the opcode, no shape says what the operands
should be, and none is checked for range or kind beyond being empty. -/
def parseLine (plen : Nat) (line : List Char) : Except (List ErrorKind) Instr :=
  let args := operandTokens line
  let empties : List ErrorKind := if args.contains [] then [.operandRange] else []
  match parseMnemonic (opcodeToken line) with
  | none => .error (.unknownOpcode :: empties)
  | some m =>
    match m.shapes.find? (fun shape => shape.length == args.length) with
    | none => .error (.wrongOperandCount :: empties)
    | some shape =>
      match collectOperands (List.zipWith (operandValue plen) shape args) with
      | ([], vs) =>
        match m.withOperands vs with
        | some i => .ok i
        | none => .error [.wrongOperandCount]
      | (errors, _) => .error errors.dedup

/-- The errors of a line that does not parse. -/
def parseErrors (plen : Nat) (line : List Char) : List ErrorKind :=
  match parseLine plen line with
  | .ok _ => []
  | .error errors => errors

/-- The instruction of a line that parses. -/
def parseInstr (plen : Nat) (line : List Char) : Option Instr :=
  match parseLine plen line with
  | .ok i => some i
  | .error _ => none

/-- The errors of line `k` of `plen`, the capacity check of R119 among them. -/
def lineErrors (plen k : Nat) (line : List Char) : List ErrorKind :=
  if Config.maxProgLen ≤ k ∧ ErrorKind.operandRange ∉ parseErrors plen line then
    parseErrors plen line ++ [.operandRange]
  else parseErrors plen line

/-- Every error of a source, line by line (R119). -/
def validate (src : List Char) : List ValidationError :=
  (instructionLines src).zipIdx.flatMap (fun l =>
    (lineErrors (instructionLines src).length l.2 l.1).map (fun kind => { line := l.2, kind := kind }))

/-- The Program of a source, or all its errors; a source with any error yields no Program (R119). -/
def assemble (src : List Char) : Except (List ValidationError) (List Instr) :=
  match validate src with
  | [] => .ok ((instructionLines src).filterMap (parseInstr (instructionLines src).length))
  | errors => .error errors

/-! ### Disassembly (R121) -/

/-- A number in decimal. -/
def decimal (n : Nat) : List Char := Nat.toDigits 10 n

/-- `R<n>`. -/
def regName (r : Reg) : List Char := 'R' :: decimal r.toNat

/-- The operands of an instruction in their canonical spelling; an RRR instruction has three (R121). -/
def Instr.operandNames : Instr → List (List Char)
  | .load rx val => [regName rx, decimal val.toNat]
  | .store rx addr => [regName rx, decimal addr.toNat]
  | .mov rd rs => [regName rd, regName rs]
  | .add rd rs1 rs2 => [regName rd, regName rs1, regName rs2]
  | .sub rd rs1 rs2 => [regName rd, regName rs1, regName rs2]
  | .mul rd rs1 rs2 => [regName rd, regName rs1, regName rs2]
  | .inc rx => [regName rx]
  | .dec rx => [regName rx]
  | .cmp rx ry => [regName rx, regName ry]
  | .jmp line => [decimal line.toNat]
  | .jz line => [decimal line.toNat]
  | .jnz line => [decimal line.toNat]
  | .jc line => [decimal line.toNat]
  | .jn line => [decimal line.toNat]
  | .nop => []

/-- Joins operands with `, ` (R121). -/
def joinOperands : List (List Char) → List Char
  | [] => []
  | [x] => x
  | x :: y :: rest => x ++ [',', ' '] ++ joinOperands (y :: rest)

/-- The canonical spelling: the opcode in upper case, one space, the operands separated by `, ` (R121). -/
def disassemble (i : Instr) : List Char :=
  match i.operandNames with
  | [] => i.mnemonic.name
  | operands => i.mnemonic.name ++ [' '] ++ joinOperands operands

/-- A program's listing, one line an instruction. -/
def disassembleProgram (p : List Instr) : List Char := p.flatMap (fun i => disassemble i ++ ['\n'])

end Sys2Proof
end

