-- ==== Sys2Proof/Machine/HostPort.lean ====
section
/-! DEFINITION. The host's ports (40_step.md R158): step request and step result, reset, program load, state read and write,
and what the host builds from them (runAll, boot). Each acts between steps; no operation overlaps another (log entry 12). -/

namespace Sys2Proof.Machine

/-! ### Step result (40_step.md R130, R141, R142) -/

/-- The final bus values of a step (R46, R141). -/
structure BusTrace where
  abus : Byte
  dbus : Byte
  cbus : BusTag
deriving DecidableEq, Repr

/-- The bus latches as a trace. -/
def State.busTrace (s : State) : BusTrace := { abus := s.abus, dbus := s.dbus, cbus := s.cbus }

/-- The result of a step (R130). -/
inductive StepResult
  | ok (trace : BusTrace)
  | halted
  | error (cause : Cause)
deriving DecidableEq, Repr

/-- The code of a cause on the result port (60_exceptions.md R220). -/
def causeCode : Cause → BitVec 2
  | .illegalOpcode => 0b01
  | .reservedBits => 0b10
  | .badTarget => 0b11

/-- The 4-bit result port `step_result = {status, cause}` (R142). -/
def StepResult.code : StepResult → BitVec 4
  | .ok _ => 0b0000
  | .halted => 0b0100
  | .error c => 0b10#2 ++ causeCode c

/-- The state after a step request, S' of R130: the next state, or the state before where the step writes none (R132,
R221). -/
def State.after (s : State) : State :=
  match step s with
  | .next t => t
  | .fault _ => s
  | .refused _ => s

/-- The result of a step request (R130, R131, R134, R141). -/
def State.result (s : State) : StepResult :=
  if s.halted then .halted
  else
    match decode s.fetchWord s.plen with
    | .error c => .error c
    | .ok _ => .ok s.after.busTrace

/-- `step(IMEM, PLEN, S) = (S', result)` (R130). -/
def State.stepRequest (s : State) : State × StepResult := (s.after, s.result)

/-! ### Reset (70_reset_and_hazards.md R250) -/

/-- `rst`: every part of S takes its reset value, IMEM and PLEN are kept (R47, R250). -/
def State.hostReset (s : State) : State := { s with toArchState := ArchState.reset }

/-! ### Program load (20_memory.md R70) -/

/-- `load_program(words)`: IMEM[0 .. n-1] and PLEN, nothing of S. R70 gives it for at most MAX_PROG_LEN words; for more there
is no transition. DESIGN CHOICE (log entry 10). -/
def State.loadProgram (s : State) (words : List Word) : Option State :=
  if words.length ≤ Config.maxProgLen then
    some { s with imem := s.imem.writeAll 0 words, plen := BitVec.ofNat 8 words.length }
  else none

/-! ### State port (10_state.md R41, R52) -/

/-- The host reads every part of S (R52); IMEM and PLEN it reads as `ProgramStore.read` and `plen`. -/
def State.hostRead (s : State) : ArchState := s.toArchState

/-- The host writes every part of S at once (R52). The data memory is given in canonical form (log entry 11). -/
def State.hostWrite (s : State) (a : ArchState) : State := { s with toArchState := a }

/-- `FLAGS[3:0] = {Z, N, V, C}` (R41). -/
def Flags.pack (f : Flags) : BitVec 4 :=
  BitVec.ofBool f.z ++ BitVec.ofBool f.n ++ BitVec.ofBool f.v ++ BitVec.ofBool f.c

/-- The flags of a packed value (R41). -/
def Flags.unpack (p : BitVec 4) : Flags :=
  { z := p.getLsbD 3, n := p.getLsbD 2, v := p.getLsbD 1, c := p.getLsbD 0 }

/-- The 2-bit code of the Control Bus tag (R45). -/
def BusTag.code : BusTag → BitVec 2
  | .idle => 0b00
  | .fetch => 0b01
  | .imm => 0b10
  | .memwr => 0b11

/-- The tag of a 2-bit code (R45): every code has one. -/
def BusTag.ofCode (c : BitVec 2) : BusTag :=
  match c.toNat with
  | 0 => .idle
  | 1 => .fetch
  | 2 => .imm
  | _ => .memwr

/-! ### runAll (40_step.md R144) -/

/-- Why a runAll ended; `bound` is the host's own bound, which R144 asks of a host that must end. -/
inductive RunEnd
  | halted
  | error (cause : Cause)
  | bound
deriving DecidableEq, Repr

/-- The host loop over the step, with a bound on the number of steps: the bus traces of its OK steps, the last state, and
why it ended (R144). -/
def State.runAll : Nat → State → List BusTrace × State × RunEnd
  | 0, s => ([], s, .bound)
  | fuel + 1, s =>
    match s.result with
    | .halted => ([], s, .halted)
    | .error c => ([], s, .error c)
    | .ok trace =>
      match State.runAll fuel s.after with
      | (traces, t, why) => (trace :: traces, t, why)

/-! ### The host's operations (60_exceptions.md R225) and boot (70_reset_and_hazards.md R255) -/

/-- The host's only ways to act on the core (R225). Reading has no effect (20_memory.md R63). -/
inductive HostOp
  | step
  | reset
  | load (words : List Word)
  | write (a : ArchState)
deriving DecidableEq, Repr

/-- One host operation; none where it has no transition. -/
def State.hostAct (s : State) : HostOp → Option State
  | .step => some s.after
  | .reset => some s.hostReset
  | .load words => s.loadProgram words
  | .write a => some (s.hostWrite a)

/-- Boot from any state, the power-up state among them (R54, R255): load, then reset. -/
def State.boot (s : State) (words : List Word) : Option State := (s.loadProgram words).map State.hostReset

/-- Assemble and load: a source with any ValidationError yields no Program and nothing is loaded (30_encoding.md R119,
20_memory.md R71, R255). -/
def State.loadSource (s : State) (src : List Char) : State :=
  match assemble src with
  | .error _ => s
  | .ok p =>
    match s.loadProgram (p.map encode) with
    | none => s
    | some t => t

end Sys2Proof.Machine
end

