-- ==== Sys2Proof/Machine/Datapath.lean ====
section
/-! DEFINITION. The structural split of 00_scope.md R2 with the ports of 40_step.md R158: eight sub-blocks and their
composition. It adds no behaviour beyond R143; `step` is the model and this is a second view, to be proved equal to it. The
unit below works on the raw opcode and mask bits, not through `decode`. -/

namespace Sys2Proof.Machine

/-- Which register's value read port A carries (R158). -/
inductive PortASel
  | ra
  | rb
deriving DecidableEq, Repr

/-- What the ALU's B input carries: read port B at `rc` or at `rb`, or the constant 1 (R158). -/
inductive PortBSel
  | rc
  | rb
  | one
deriving DecidableEq, Repr

/-- `wb_sel` (R158). REG_B is the value of register `rb`, which MOV reads on port A. DEDUCED (log entry 19). -/
inductive WriteBackSel
  | imm
  | regB
  | alu
deriving DecidableEq, Repr

/-- The outputs of `fetch_decode_unit` (R158). -/
structure Control where
  halted  : Bool
  illegal : Bool
  cause   : BitVec 2
  op      : BitVec 4
  ra      : Reg
  rb      : Reg
  rc      : Reg
  imm8    : Byte
  addr6   : Addr
  line8   : Line
  regWe   : Bool
  memWe   : Bool
  flagsWe : Bool
  stageWe : Bool
  aluOp   : AluOp
  aSel    : PortASel
  bSel    : PortBSel
  wbSel   : WriteBackSel
  dbusWe  : Bool
  cbusTag : BitVec 2
deriving DecidableEq, Repr

/-- The reserved bits of the opcode's format that are set in `w` (R98), by opcode number. -/
def reservedBitsSet (w : Word) : Bool :=
  let bits : Word :=
    match (opOf w).toNat with
    | 0 => w &&& 0x0100
    | 1 => w &&& 0x01C0
    | 2 | 8 => w &&& 0x003F
    | 3 | 4 | 5 => w &&& 0x0007
    | 6 | 7 => w &&& 0x01FF
    | 9 | 10 | 11 | 12 | 13 => w &&& 0x0F00
    | 14 => w &&& 0x0FFF
    | _ => 0
  decide (bits ≠ 0)

/-- `fetch_decode_unit`: from the pc, PLEN and the instruction store's word, the status, the fields and the control signals
(R158), with the checks in the order of R224. DESIGN CHOICE (log entry 23) for the signals that R158 gives no value: `alu_op`,
`a_sel`, `b_sel` and `wb_sel` of an instruction that does not use them, every control signal of an illegal word, and `illegal`
and `cause` while halted, which are computed from the word at the pc all the same. None reaches a result of `datapathStep`. -/
def fetchDecodeUnit (pc : Line) (plen : Byte) (word : Word) : Control :=
  let op := opOf word
  let n := op.toNat
  let line8 := line8Of word
  let illegalOpcode := decide (n = 15)
  let reserved := reservedBitsSet word
  let badTarget := decide (9 ≤ n) && decide (n ≤ 13) && decide (plen ≤ line8)
  { halted := decide (plen ≤ pc)
    illegal := illegalOpcode || reserved || badTarget
    cause := if illegalOpcode then 0b01 else if reserved then 0b10 else if badTarget then 0b11 else 0b00
    op := op
    ra := raOf word
    rb := rbOf word
    rc := rcOf word
    imm8 := imm8Of word
    addr6 := addr6Of word
    line8 := line8
    regWe := decide (n = 0) || (decide (2 ≤ n) && decide (n ≤ 7))
    memWe := decide (n = 1)
    flagsWe := decide (3 ≤ n) && decide (n ≤ 8)
    stageWe := decide (n = 1)
    aluOp := if n = 5 then .mul else if n = 4 ∨ n = 7 ∨ n = 8 then .sub else .add
    aSel := if 2 ≤ n ∧ n ≤ 5 then .rb else .ra
    bSel := if n = 6 ∨ n = 7 then .one else if n = 8 then .rb else .rc
    wbSel := if n = 0 then .imm else if n = 2 then .regB else .alu
    dbusWe := decide (n ≤ 1)
    cbusTag := if n = 0 then 0b10 else if n = 1 then 0b11 else 0b01 }

/-- `register_file_8x8`, the two read ports (R158): port A by `aSel`, the ALU's B input by `bSel`. -/
def registerReadPorts (regs : Vector Byte 8) (k : Control) : Byte × Byte :=
  let read (r : Reg) : Byte := regs[r.toNat]'(r.isLt)
  (match k.aSel with
    | .ra => read k.ra
    | .rb => read k.rb,
   match k.bSel with
    | .rc => read k.rc
    | .rb => read k.rb
    | .one => 1)

/-- `register_file_8x8`, the write port: `waddr = ra`, `we = reg_we AND commit` (R158). -/
def registerWritePort (regs : Vector Byte 8) (we : Bool) (waddr : Reg) (wdata : Byte) : Vector Byte 8 :=
  if we then regs.set waddr.toNat wdata waddr.isLt else regs

/-- `flag_register_znvc`: `we = flags_we AND commit` (R158). -/
def flagRegister (old : Flags) (we : Bool) (new : Flags) : Flags := if we then new else old

/-- `memory_array_64x8`, the write port (R158). -/
def memoryWritePort (mem : Memory) (we : Bool) (waddr : Addr) (wdata : Byte) : Memory :=
  if we then mem.write waddr wdata else mem

/-- `mar_mdr_staging`: MAR and MDR, `we = stage_we AND commit` (R158). -/
def stagingRegisters (mar mdr : Byte) (we : Bool) (addr6 : Addr) (portA : Byte) : Byte × Byte :=
  if we then (addr6.setWidth 8, portA) else (mar, mdr)

/-- `branch_resolver`: taken and the next pc (43_control.md R201, R158). -/
def branchResolver (op : BitVec 4) (z n c : Bool) (pc line8 : Line) : Bool × Line :=
  let taken :=
    match op.toNat with
    | 9 => true
    | 10 => z
    | 11 => !z
    | 12 => c
    | 13 => n
    | _ => false
  (taken, if taken then line8 else pc + 1)

/-- `pc_and_ir_latches` (R158). -/
def pcIrLatches (pc : Line) (ir : Word) (commit : Bool) (pcNext : Line) (irNext : Word) : Line × Word :=
  if commit then (pcNext, irNext) else (pc, ir)

/-- The bus latches after the step (R141): every committed step drives ABUS and CBUS; STORE drives ABUS with its address. -/
def busLatches (s : State) (commit : Bool) (k : Control) (portA : Byte) : BusTrace :=
  if commit then
    { abus := if k.memWe then k.addr6.setWidth 8 else s.pc
      dbus := if k.dbusWe then (if k.memWe then portA else k.imm8) else s.dbus
      cbus := BusTag.ofCode k.cbusTag }
  else s.busTrace

/-- The sub-blocks composed for one `step_req`: the new state and `step_result` (R142, R158). `commit` is asserted exactly
when the result is OK. -/
def datapathStep (s : State) : State × BitVec 4 :=
  let k := fetchDecodeUnit s.pc s.plen s.fetchWord
  let commit := !k.halted && !k.illegal
  let ports := registerReadPorts s.regs k
  let out := alu k.aluOp ports.1 ports.2
  let wdata :=
    match k.wbSel with
    | .imm => k.imm8
    | .regB => ports.1
    | .alu => out.y
  let stage := stagingRegisters s.mar s.mdr (k.stageWe && commit) k.addr6 ports.1
  let next := branchResolver k.op s.flags.z s.flags.n s.flags.c s.pc k.line8
  let latches := pcIrLatches s.pc s.ir commit next.2 s.fetchWord
  let buses := busLatches s commit k ports.1
  ({ s with
      regs := registerWritePort s.regs (k.regWe && commit) k.ra wdata
      mem := memoryWritePort s.mem (k.memWe && commit) k.addr6 ports.1
      pc := latches.1
      ir := latches.2
      mar := stage.1
      mdr := stage.2
      flags := flagRegister s.flags (k.flagsWe && commit) out.flags
      abus := buses.abus
      dbus := buses.dbus
      cbus := buses.cbus },
   if k.halted then 0b0100 else if k.illegal then 0b10#2 ++ k.cause else 0b0000)

end Sys2Proof.Machine
end

