-- ==== Sys2Proof/Safety.lean ====
section
/-! DEFINITION. What counts as a safe run, and the words that claims use: the invariant of the state, a valid program, the
spec's tables of what an instruction writes, and what two states have in common. -/

namespace Sys2Proof.Machine

/-! ### Invariant, valid program, safe run -/

/-- The data memory and the instruction store are in canonical form and `0 ≤ pc ≤ PLEN` (10_state.md R33). -/
structure State.Inv (s : State) : Prop where
  mem : s.mem.wf = true
  imem : s.imem.wf = true
  pc : s.pc ≤ s.plen

/-- Every word of the loaded program passes the decode checks (20_memory.md R71). -/
def State.ProgramValid (s : State) : Prop :=
  ∀ l : Nat, l < s.plen.toNat → ∃ i, decode (s.imem.read l) s.plen = .ok i

/-- A safe run: however many steps are asked for, no step faults or is refused. -/
def SafeRun (s : State) : Prop := ∀ k : Nat, ∃ t, Sys2Proof.core.run k s = .next t

/-! ### The spec's tables of what an instruction writes -/

/-- The register an instruction writes (10_state.md R31). -/
def writtenReg : Instr → Option Reg
  | .load rx _ => some rx
  | .store _ _ => none
  | .mov rd _ => some rd
  | .add rd _ _ => some rd
  | .sub rd _ _ => some rd
  | .mul rd _ _ => some rd
  | .inc rx => some rx
  | .dec rx => some rx
  | .cmp _ _ => none
  | .jmp _ => none
  | .jz _ => none
  | .jnz _ => none
  | .jc _ => none
  | .jn _ => none
  | .nop => none

/-- The registers an instruction reads (10_state.md R31). -/
def readRegs : Instr → List Reg
  | .load _ _ => []
  | .store rx _ => [rx]
  | .mov _ rs => [rs]
  | .add _ rs1 rs2 => [rs1, rs2]
  | .sub _ rs1 rs2 => [rs1, rs2]
  | .mul _ rs1 rs2 => [rs1, rs2]
  | .inc rx => [rx]
  | .dec rx => [rx]
  | .cmp rx ry => [rx, ry]
  | .jmp _ => []
  | .jz _ => []
  | .jnz _ => []
  | .jc _ => []
  | .jn _ => []
  | .nop => []

/-- What an instruction writes to its register, from the registers it reads (41_data_transfer.md R160, R162, 42_alu.md R180 to
R184). -/
def writtenValue (i : Instr) (s : State) : Option Byte :=
  match i with
  | .load _ val => some val
  | .mov _ rs => some (s.readReg rs)
  | .add _ rs1 rs2 => some (alu .add (s.readReg rs1) (s.readReg rs2)).y
  | .sub _ rs1 rs2 => some (alu .sub (s.readReg rs1) (s.readReg rs2)).y
  | .mul _ rs1 rs2 => some (alu .mul (s.readReg rs1) (s.readReg rs2)).y
  | .inc rx => some (alu .add (s.readReg rx) 1).y
  | .dec rx => some (alu .sub (s.readReg rx) 1).y
  | .store _ _ => none
  | .cmp _ _ => none
  | .jmp _ => none
  | .jz _ => none
  | .jnz _ => none
  | .jc _ => none
  | .jn _ => none
  | .nop => none

/-- A flag-defining instruction (00_scope.md R12, 40_step.md R138). -/
def flagDefining : Instr → Bool
  | .add _ _ _ => true
  | .sub _ _ _ => true
  | .mul _ _ _ => true
  | .inc _ => true
  | .dec _ => true
  | .cmp _ _ => true
  | .load _ _ => false
  | .store _ _ => false
  | .mov _ _ => false
  | .jmp _ => false
  | .jz _ => false
  | .jnz _ => false
  | .jc _ => false
  | .jn _ => false
  | .nop => false

/-- The cell an instruction stores to, by the address its meaning uses (20_memory.md R61, R62). -/
def writtenCell : Instr → Option Addr
  | .store _ addr => some (storeAddress addr)
  | .load _ _ => none
  | .mov _ _ => none
  | .add _ _ _ => none
  | .sub _ _ _ => none
  | .mul _ _ _ => none
  | .inc _ => none
  | .dec _ => none
  | .cmp _ _ => none
  | .jmp _ => none
  | .jz _ => none
  | .jnz _ => none
  | .jc _ => none
  | .jn _ => none
  | .nop => none

/-- The flags an instruction leaves: those of its ALU operation for the flag-defining ones, the old ones for every other
(40_step.md R138, R143). -/
def flagsLeft (i : Instr) (s : State) : Flags :=
  match i with
  | .add _ rs1 rs2 => (alu .add (s.readReg rs1) (s.readReg rs2)).flags
  | .sub _ rs1 rs2 => (alu .sub (s.readReg rs1) (s.readReg rs2)).flags
  | .mul _ rs1 rs2 => (alu .mul (s.readReg rs1) (s.readReg rs2)).flags
  | .inc rx => (alu .add (s.readReg rx) 1).flags
  | .dec rx => (alu .sub (s.readReg rx) 1).flags
  | .cmp rx ry => (alu .sub (s.readReg rx) (s.readReg ry)).flags
  | .load _ _ => s.flags
  | .store _ _ => s.flags
  | .mov _ _ => s.flags
  | .jmp _ => s.flags
  | .jz _ => s.flags
  | .jnz _ => s.flags
  | .jc _ => s.flags
  | .jn _ => s.flags
  | .nop => s.flags

/-- The value of the flag an instruction reads, where it reads one (10_state.md R40). -/
def flagRead (i : Instr) (f : Flags) : Option Bool :=
  match i with
  | .jz _ => some f.z
  | .jnz _ => some f.z
  | .jc _ => some f.c
  | .jn _ => some f.n
  | .jmp _ => none
  | .load _ _ => none
  | .store _ _ => none
  | .mov _ _ => none
  | .add _ _ _ => none
  | .sub _ _ _ => none
  | .mul _ _ _ => none
  | .inc _ => none
  | .dec _ => none
  | .cmp _ _ => none
  | .nop => none

/-- `taken` of the branch resolver (43_control.md R201). -/
def branchTaken (i : Instr) (f : Flags) : Bool :=
  match i with
  | .jmp _ => true
  | .jz _ => f.z
  | .jnz _ => !f.z
  | .jc _ => f.c
  | .jn _ => f.n
  | .load _ _ => false
  | .store _ _ => false
  | .mov _ _ => false
  | .add _ _ _ => false
  | .sub _ _ _ => false
  | .mul _ _ _ => false
  | .inc _ => false
  | .dec _ => false
  | .cmp _ _ => false
  | .nop => false

/-- The final bus values of a step that runs `i` from `s`, as the table of 40_step.md R141 gives them. -/
def busTable (i : Instr) (s : State) : BusTrace :=
  match i with
  | .load _ val => { abus := s.pc, dbus := val, cbus := .imm }
  | .store rx addr => { abus := addr.setWidth 8, dbus := s.readReg rx, cbus := .memwr }
  | .mov _ _ => { abus := s.pc, dbus := s.dbus, cbus := .fetch }
  | .add _ _ _ => { abus := s.pc, dbus := s.dbus, cbus := .fetch }
  | .sub _ _ _ => { abus := s.pc, dbus := s.dbus, cbus := .fetch }
  | .mul _ _ _ => { abus := s.pc, dbus := s.dbus, cbus := .fetch }
  | .inc _ => { abus := s.pc, dbus := s.dbus, cbus := .fetch }
  | .dec _ => { abus := s.pc, dbus := s.dbus, cbus := .fetch }
  | .cmp _ _ => { abus := s.pc, dbus := s.dbus, cbus := .fetch }
  | .jmp _ => { abus := s.pc, dbus := s.dbus, cbus := .fetch }
  | .jz _ => { abus := s.pc, dbus := s.dbus, cbus := .fetch }
  | .jnz _ => { abus := s.pc, dbus := s.dbus, cbus := .fetch }
  | .jc _ => { abus := s.pc, dbus := s.dbus, cbus := .fetch }
  | .jn _ => { abus := s.pc, dbus := s.dbus, cbus := .fetch }
  | .nop => { abus := s.pc, dbus := s.dbus, cbus := .fetch }

/-! ### What two states have in common -/

/-- Every general register is the same, except the one named. -/
def RegsSameExcept (rd : Option Reg) (s t : State) : Prop := ∀ r : Reg, rd ≠ some r → t.readReg r = s.readReg r

/-- Every data-memory cell reads the same, except the one named. -/
def MemSameExcept (a : Option Addr) (s t : State) : Prop := ∀ b : Addr, a ≠ some b → t.mem.read b = s.mem.read b

/-- MAR and MDR are the same. -/
def StagingSame (s t : State) : Prop := t.mar = s.mar ∧ t.mdr = s.mdr

/-- The three bus latches are the same. -/
def BusesSame (s t : State) : Prop := t.abus = s.abus ∧ t.dbus = s.dbus ∧ t.cbus = s.cbus

/-- The configuration, IMEM and PLEN, is the same. -/
def ProgramSame (s t : State) : Prop := t.imem = s.imem ∧ t.plen = s.plen

/-- Only the named register, the flags and the pc may differ: every other register, every memory cell, IR, MAR, MDR, the
buses and the program are the same. The frame of an instruction that neither loads an immediate nor stores. -/
structure Untouched (rd : Option Reg) (s t : State) : Prop where
  regs : RegsSameExcept rd s t
  mem : MemSameExcept none s t
  ir : t.ir = s.ir
  staging : StagingSame s t
  buses : BusesSame s t
  program : ProgramSame s t

/-- Everything a program can come to observe is the same: registers, Z, N, C, pc, and the program. V, the data memory, IR,
MAR, MDR and the buses are not in it: no instruction reads them (10_state.md R36, R37, R38, R40, R46, 20_memory.md R63). -/
structure ObservableSame (s t : State) : Prop where
  regs : t.regs = s.regs
  z : t.flags.z = s.flags.z
  n : t.flags.n = s.flags.n
  c : t.flags.c = s.flags.c
  pc : t.pc = s.pc
  imem : t.imem = s.imem
  plen : t.plen = s.plen

/-- Two states that differ at most in the bus latches (10_state.md R46). -/
structure SameButBuses (s t : State) : Prop where
  regs : t.regs = s.regs
  mem : t.mem = s.mem
  pc : t.pc = s.pc
  ir : t.ir = s.ir
  mar : t.mar = s.mar
  mdr : t.mdr = s.mdr
  flags : t.flags = s.flags
  imem : t.imem = s.imem
  plen : t.plen = s.plen

/-- Two outcomes of a step agree up to a relation on next states: both go on to related states, or both stop alike. -/
def OutcomesAgree (related : State → State → Prop) :
    Host.Outcome State Fault Refusal → Host.Outcome State Fault Refusal → Prop
  | .next s, .next t => related s t
  | .fault a, .fault b => a = b
  | .refused a, .refused b => a = b
  | _, _ => False

end Sys2Proof.Machine
end

