-- ==== Sys2Proof/Certificates/Slice0/Obligations.lean ====
section
/-! DEFINITION. The statements for the provers. "x[r]" of the spec is `readReg r`, "M[a]" is `mem.read a`; a step's S' and
result are `after` and `result`. -/

open Sys2Proof Sys2Proof.Machine

/-! ## Encoding -/

/-- R118, R102: decoding the encoding of an instruction, in a program that has its jump target, gives it back, every operand
at every value. -/
def Obligations.EncodeThenDecode : Prop :=
  ∀ (i : Instr) (plen : Byte), i.wellFormedFor plen = true → decode (encode i) plen = .ok i

/-- R102: every word, with every program length, is exactly one instruction with legal fields (and the encoding of no other),
or illegal, and then the encoding of no instruction that is legal in the program; no word matches two rows of R99. -/
def Obligations.EveryWordIsOneInstructionOrIllegal : Prop :=
  (∀ (w : Word) (plen : Byte),
    (∃ i, decode w plen = .ok i ∧ i.wellFormedFor plen = true ∧ encode i = w ∧ ∀ j, encode j = w → j = i) ∨
    (∃ c, decode w plen = .error c ∧ ∀ j, encode j = w → j.wellFormedFor plen = false)) ∧
  (∀ (w : Word) (m m' : Mnemonic), m.encodedBy w = true → m'.encodedBy w = true → m = m')

/-- R99: the rows of match and mask are the listed ones; a word matches the row of a mnemonic exactly when the checks on the
word alone read an instruction of that mnemonic; a J-format word must also pass the target check. -/
def Obligations.WordsMatchTheRowTheyDecodeTo : Prop :=
  Mnemonic.all.map (fun m => (m.matchBits, m.maskBits)) =
      [(0x0000, 0xF100), (0x1000, 0xF1C0), (0x2000, 0xF03F), (0x3000, 0xF007), (0x4000, 0xF007), (0x5000, 0xF007),
       (0x6000, 0xF1FF), (0x7000, 0xF1FF), (0x8000, 0xF03F), (0x9000, 0xFF00), (0xA000, 0xFF00), (0xB000, 0xFF00),
       (0xC000, 0xFF00), (0xD000, 0xFF00), (0xE000, 0xFFFF)] ∧
  (∀ (m : Mnemonic) (w : Word), m.encodedBy w = true ↔ ∃ i, decodeWord w = .ok i ∧ i.mnemonic = m) ∧
  (∀ (w : Word) (plen : Byte) (i : Instr),
    decode w plen = .ok i ↔ decodeWord w = .ok i ∧ ∀ line, i.target? = some line → line.toNat < plen.toNat)

/-- R100: a word is illegal by its opcode or by a reserved bit of its format, and fetching it raises ExecutionError with that
cause and writes no state. -/
def Obligations.IllegalWordsRaiseTheirCause : Prop :=
  (∀ w : Word, decodeWord w = .error .illegalOpcode ↔ (opOf w).toNat = 15) ∧
  (∀ w : Word, decodeWord w = .error .reservedBits ↔
    ∃ m : Mnemonic, opOf w = m.opcode ∧ w &&& m.format.reservedMask ≠ 0) ∧
  (∀ (s : State) (c : Cause), s.pc.toNat < s.plen.toNat → decodeWord s.fetchWord = .error c →
    s.stepRequest = (s, .error c))

/-- R101: a J-format word with its target at or above PLEN is illegal with cause BAD_TARGET, whatever the flags, so whether or
not the jump would be taken. -/
def Obligations.BadTargetIsIllegalWhetherTakenOrNot : Prop :=
  ∀ (w : Word) (line : Line) (m : Mnemonic), m.format = .j → m.encodedBy w = true → line8Of w = line →
    (∀ plen : Byte, plen.toNat ≤ line.toNat → decode w plen = .error .badTarget) ∧
    (∀ (s : State) (f : Flags), s.fetchWord = w → s.pc.toNat < s.plen.toNat → s.plen.toNat ≤ line.toNat →
      (s.setFlags f).stepRequest = (s.setFlags f, .error .badTarget))

/-- R224: the checks of a step run in the order halt, opcode, reserved bits, target, and the first that holds decides; 0x9F09
with PLEN 5 reports RESERVED_BITS. -/
def Obligations.ChecksRunInPriorityOrder : Prop :=
  (∀ s : State,
    (s.plen.toNat ≤ s.pc.toNat → s.result = .halted) ∧
    (s.pc.toNat < s.plen.toNat →
      ((opOf s.fetchWord).toNat = 15 → s.result = .error .illegalOpcode) ∧
      ∀ m : Mnemonic, opOf s.fetchWord = m.opcode →
        (s.fetchWord &&& m.format.reservedMask ≠ 0 → s.result = .error .reservedBits) ∧
        (s.fetchWord &&& m.format.reservedMask = 0 →
          (m.format = .j ∧ s.plen.toNat ≤ (line8Of s.fetchWord).toNat → s.result = .error .badTarget) ∧
          (¬(m.format = .j ∧ s.plen.toNat ≤ (line8Of s.fetchWord).toNat) → s.result = .ok s.after.busTrace)))) ∧
  decode 0x9F09 5 = .error .reservedBits

/-- R93: each field is the named slice of the word, read as an unsigned number; `line8` is legal as a target only below PLEN. -/
def Obligations.FieldsAreUnsignedSlices : Prop :=
  ∀ w : Word,
    (opOf w).toNat = w.toNat / 2 ^ 12 ∧
    (raOf w).toNat = w.toNat / 2 ^ 9 % 8 ∧
    (rbOf w).toNat = w.toNat / 2 ^ 6 % 8 ∧
    (rcOf w).toNat = w.toNat / 2 ^ 3 % 8 ∧
    (imm8Of w).toNat = w.toNat % 256 ∧
    (addr6Of w).toNat = w.toNat % 64 ∧
    (line8Of w).toNat = w.toNat % 256 ∧
    ∀ (plen : Byte) (i : Instr) (line : Line), decode w plen = .ok i → i.target? = some line →
      line = line8Of w ∧ line.toNat < plen.toNat

/-- Words written out from R92 and the worked encodings of R104, one of each format, read as the instructions they stand
for. -/
def Obligations.SampleWordsDecode : Prop :=
  decode 0b0000000000001010#16 4 = .ok (.load 0 10) ∧
  decode 0b0001010000000101#16 4 = .ok (.store 2 5) ∧
  decode 0b0010100001000000#16 4 = .ok (.mov 4 1) ∧
  decode 0b0011010000001000#16 4 = .ok (.add 2 0 1) ∧
  decode 0b0110110000000000#16 4 = .ok (.inc 6) ∧
  decode 0b1000110111000000#16 4 = .ok (.cmp 6 7) ∧
  decode 0b1011000000000010#16 5 = .ok (.jnz 2) ∧
  decode 0b1110000000000000#16 4 = .ok .nop

/-- R67: a program image holds each word most significant byte first, and reading it back gives the words. -/
def Obligations.ProgramImageRoundTrip : Prop :=
  ∀ ws : List Word,
    imageWords (programImage ws) = some ws ∧
    (programImage ws).length = 2 * ws.length ∧
    ∀ (k : Nat) (w : Word), ws[k]? = some w →
      (programImage ws)[2 * k]? = some (BitVec.ofNat 8 (w.toNat / 256)) ∧
      (programImage ws)[2 * k + 1]? = some (BitVec.ofNat 8 (w.toNat % 256))

/-! ## The step -/

/-- R133 to R136: where the core is not halted and the word at the pc decodes to `i`, the step is `exec i` at the state with
the fetch latched: IR the word, ABUS the pc, CBUS FETCH, and nothing else changed. In the model's own outcomes: a halted step
is a next state that changes nothing (the model's choice, log entry 1), and an illegal word is the fault that carries its
cause (log entry 2). -/
def Obligations.StepRunsTheDecodedInstruction : Prop :=
  (∀ (s : State) (i : Instr), s.pc.toNat < s.plen.toNat → decode s.fetchWord s.plen = .ok i →
    step s = exec i (s.latchFetch s.fetchWord) ∧
    s.latchFetch s.fetchWord = { s with ir := s.imem.read s.pc.toNat, abus := s.pc, cbus := .fetch }) ∧
  (∀ s : State, s.plen.toNat ≤ s.pc.toNat → step s = .next s) ∧
  (∀ (s : State) (c : Cause), s.pc.toNat < s.plen.toNat → decode s.fetchWord s.plen = .error c →
    step s = .fault (.executionError c))

/-- R131: at `pc ≥ PLEN` a step writes no state and reports HALTED, and only there; with PLEN 0 that is at every pc. -/
def Obligations.HaltedStepChangesNothing : Prop :=
  (∀ s : State, s.plen.toNat ≤ s.pc.toNat → s.stepRequest = (s, .halted)) ∧
  (∀ s : State, s.result = .halted → s.plen.toNat ≤ s.pc.toNat) ∧
  (∀ s : State, s.plen = 0 → s.result = .halted)

/-- R134: the step decodes the fetched word against PLEN; an illegal word ends it with ERROR(cause) and no state written, and
only an illegal word does. -/
def Obligations.IllegalWordStepWritesNothing : Prop :=
  ∀ s : State, s.pc.toNat < s.plen.toNat →
    (∀ c, decode s.fetchWord s.plen = .error c → s.stepRequest = (s, .error c)) ∧
    (∀ i, decode s.fetchWord s.plen = .ok i → ∃ t, step s = .next t ∧ s.stepRequest = (t, .ok t.busTrace))

/-- R145: a halted state and a state whose step reports an error stay as they are and report the same, however many steps are
asked for. -/
def Obligations.HaltedAndErrorStatesRepeat : Prop :=
  ∀ (s : State) (n : Nat), (s.result = .halted ∨ ∃ c, s.result = .error c) →
    State.after^[n] s = s ∧ (State.after^[n] s).result = s.result

/-- R135: a step that decodes a legal word leaves that word in IR, the pc before the step in ABUS (unless STORE overrides it),
and the tag FETCH in CBUS (unless LOAD or STORE overrides it). -/
def Obligations.EveryOkStepLatchesItsFetch : Prop :=
  ∀ (s : State) (i : Instr), s.pc.toNat < s.plen.toNat → decode s.fetchWord s.plen = .ok i →
    ∃ t, step s = .next t ∧ t.ir = s.fetchWord ∧
      (i.mnemonic ≠ .store → t.abus = s.pc) ∧
      (i.mnemonic ≠ .store → i.mnemonic ≠ .load → t.cbus = .fetch)

/-- R141: the final bus values of an OK step are those of the table, and they are the step's trace. -/
def Obligations.OkStepsLeaveTheTabledBusValues : Prop :=
  ∀ (s : State) (i : Instr), s.pc.toNat < s.plen.toNat → decode s.fetchWord s.plen = .ok i →
    ∃ t, step s = .next t ∧ t.busTrace = busTable i s ∧ s.result = .ok (busTable i s)

/-- R139, R201: a step that reaches execution sets the pc to the target of a taken jump, and to `pc + 1` for every other
instruction and for an untaken jump; `taken` reads the flags before the step; `pc + 1` does not exceed PLEN. -/
def Obligations.NextPcIsTheBranchResolvers : Prop :=
  ∀ (s : State) (i : Instr), s.pc.toNat < s.plen.toNat → decode s.fetchWord s.plen = .ok i →
    ∃ t, step s = .next t ∧
      (∀ line, i.target? = some line → branchTaken i s.flags = true → t.pc = line) ∧
      (branchTaken i s.flags = true → ∃ line, i.target? = some line) ∧
      (branchTaken i s.flags = false → t.pc = s.pc + 1) ∧
      (s.pc + 1).toNat ≤ s.plen.toNat

/-- R35: any line below PLEN is a legal pc and a legal jump target; `pc + 1` never wraps in a step that runs, a taken jump lands
below PLEN, and no step moves the pc past PLEN or wraps it to 0. -/
def Obligations.PcNeverPassesTheProgramEnd : Prop :=
  (∀ s : State, s.pc.toNat < s.plen.toNat → s.result ≠ .halted) ∧
  (∀ (plen : Byte) (line : Line), line.toNat < plen.toNat → decode (encode (.jmp line)) plen = .ok (.jmp line)) ∧
  ∀ s t : State, s.pc.toNat < s.plen.toNat → step s = .next t →
    (s.pc + 1).toNat = s.pc.toNat + 1 ∧
    t.pc.toNat ≤ s.plen.toNat ∧
    (t.pc.toNat = s.pc.toNat + 1 ∨
      ∃ i line, decode s.fetchWord s.plen = .ok i ∧ i.target? = some line ∧ branchTaken i s.flags = true ∧
        t.pc = line ∧ line.toNat < s.plen.toNat)

/-- R138: a flag-defining instruction writes all four flags with the values of its ALU operation, every other writes none. -/
def Obligations.FlagsComeFromFlagDefiningInstructions : Prop :=
  ∀ (s : State) (i : Instr), s.pc.toNat < s.plen.toNat → decode s.fetchWord s.plen = .ok i →
    ∃ t, step s = .next t ∧ t.flags = flagsLeft i s

/-! ## What every instruction leaves alone -/

/-- R31: an instruction writes the listed register, with the value its rule makes of the registers it is listed to read, and no
other register; its flags and its stored cell are made of those registers too, and depend on no other; beside instructions,
reset and the host's state port write registers. -/
def Obligations.RegistersWrittenAndReadAsListed : Prop :=
  (∀ (i : Instr) (s : State), ∃ t, exec i s = .next t ∧ RegsSameExcept (writtenReg i) s t ∧
    (∀ r, writtenReg i = some r → some (t.readReg r) = writtenValue i s) ∧ t.flags = flagsLeft i s ∧
    (∀ rx addr, i = .store rx addr → t.mem.read (storeAddress addr) = s.readReg rx)) ∧
  (∀ (i : Instr) (s u : State), (∀ r ∈ readRegs i, u.readReg r = s.readReg r) → u.flags = s.flags → u.pc = s.pc →
    ∃ t v, exec i s = .next t ∧ exec i u = .next v ∧
      (∀ r, writtenReg i = some r → v.readReg r = t.readReg r) ∧ v.flags = t.flags ∧ v.pc = t.pc ∧
      (∀ a, writtenCell i = some a → v.mem.read a = t.mem.read a)) ∧
  (∀ (s : State) (r : Reg), s.hostReset.readReg r = 0) ∧
  (∀ (s u : State) (r : Reg), (s.hostWrite u.hostRead).readReg r = u.readReg r)

/-- R40: a change of the flags reaches no register, memory cell, latch or bus, and not the program; a flag-defining instruction
leaves the same flags, every other leaves the changed ones; it reaches the pc only through the flag that the jump reads: Z for
JZ and JNZ, C for JC, N for JN. No instruction reads V. -/
def Obligations.FlagsReadAsListed : Prop :=
  ∀ (i : Instr) (s : State) (f : Flags),
    ∃ t u, exec i s = .next t ∧ exec i (s.setFlags f) = .next u ∧ u.regs = t.regs ∧ u.mem = t.mem ∧
      u.ir = t.ir ∧ StagingSame t u ∧ BusesSame t u ∧ ProgramSame t u ∧
      (flagDefining i = true → u.flags = t.flags) ∧ (flagDefining i = false → t.flags = s.flags ∧ u.flags = f) ∧
      (flagRead i f = flagRead i s.flags → u.pc = t.pc) ∧
      (∀ v : Bool, ∃ x, exec i (s.setFlags { s.flags with v := v }) = .next x ∧ x.pc = t.pc)

/-- R46: the bus latches never change a register, the memory, a flag or the pc: two states that differ only in the buses step
alike and differ at most in the buses after it. An OK result carries the buses after the step. -/
def Obligations.BusesNeverInfluenceAnythingElse : Prop :=
  (∀ s u : State, SameButBuses s u → OutcomesAgree SameButBuses (step s) (step u)) ∧
  (∀ (s t : State) (trace : BusTrace), step s = .next t → s.result = .ok trace →
    trace = { abus := t.abus, dbus := t.dbus, cbus := t.cbus })

/-- R36, R37, R38, R40, R46, R63: no state that no instruction reads (V, the data memory, IR, MAR, MDR, the buses) ever reaches
a register, Z, N, C or the pc, over any number of steps. -/
def Obligations.UnreadStateNeverInfluencesAnyRun : Prop :=
  ∀ (n : Nat) (s u : State), ObservableSame s u →
    OutcomesAgree ObservableSame (Sys2Proof.core.run n s) (Sys2Proof.core.run n u)

/-- R61: among instructions only STORE reaches the data memory, and only to write: it writes exactly the one cell, with `x[ra]`,
and what the memory holds reaches no register, flag, pc, IR, MAR, MDR or bus; reset and the host's state port write it too. -/
def Obligations.OnlyStoreWritesMemory : Prop :=
  (∀ (i : Instr) (s : State), ∃ t, exec i s = .next t ∧ MemSameExcept (writtenCell i) s t ∧
    (∀ rx addr, i = .store rx addr → t.mem.read addr = s.readReg rx) ∧
    (i.mnemonic ≠ .store → t.mem = s.mem) ∧
    (∀ m : Memory, ∃ u, exec i { s with mem := m } = .next u ∧ u.regs = t.regs ∧ u.flags = t.flags ∧ u.pc = t.pc ∧
      u.ir = t.ir ∧ StagingSame t u ∧ BusesSame t u ∧ ProgramSame t u)) ∧
  (∀ (s : State) (a : Addr), s.hostReset.mem.read a = 0) ∧
  (∀ (s u : State) (a : Addr), (s.hostWrite u.hostRead).mem.read a = u.mem.read a)

/-- R77: no step, reset or host write changes the program, so no program modifies its own code; after a load the next fetch
sees the new words. -/
def Obligations.ProgramsNeverModifyThemselves : Prop :=
  (∀ s t : State, step s = .next t → ProgramSame s t) ∧
  (∀ s : State, ProgramSame s s.hostReset) ∧
  (∀ (s : State) (a : ArchState), ProgramSame s (s.hostWrite a)) ∧
  (∀ (s t : State) (words : List Word) (w : Word), s.loadProgram words = some t → words[t.pc.toNat]? = some w →
    t.fetchWord = w)

/-! ## Data transfer -/

/-- R160, the execute part: LOAD completes in every state, writes its immediate to its register, drives it on the Data Bus with
the tag IMM, advances the pc, and changes nothing else. -/
def Obligations.LoadWritesItsImmediate : Prop :=
  ∀ (rx : Reg) (val : Byte) (s : State), ∃ t, exec (.load rx val) s = .next t ∧
    t.readReg rx = val ∧ t.dbus = val ∧ t.cbus = .imm ∧ t.pc = s.pc + 1 ∧
    RegsSameExcept (some rx) s t ∧ MemSameExcept none s t ∧ t.flags = s.flags ∧ t.abus = s.abus ∧ t.ir = s.ir ∧
    StagingSame s t ∧ ProgramSame s t

/-- R161, the execute part: STORE completes in every state, writes `x[ra]` to its cell, to MDR and to the Data Bus, its address
to MAR and the Address Bus, the tag MEMWR, advances the pc, and changes nothing else. -/
def Obligations.StoreWritesItsCell : Prop :=
  ∀ (rx : Reg) (addr : Addr) (s : State), ∃ t, exec (.store rx addr) s = .next t ∧
    t.mem.read (storeAddress addr) = s.readReg rx ∧
    (∀ a, storeAddress addr = a → ∀ b, b ≠ a → t.mem.read b = s.mem.read b) ∧
    t.mar.toNat = addr.toNat ∧ t.mdr = s.readReg rx ∧
    t.abus.toNat = addr.toNat ∧ t.dbus = s.readReg rx ∧ t.cbus = .memwr ∧ t.pc = s.pc + 1 ∧
    RegsSameExcept none s t ∧ t.flags = s.flags ∧ t.ir = s.ir ∧ ProgramSame s t

/-- R162, the execute part: MOV completes in every state, copies the source register as it was, advances the pc, and changes
nothing else. -/
def Obligations.MovCopiesItsSource : Prop :=
  ∀ (rd rs : Reg) (s : State), ∃ t, exec (.mov rd rs) s = .next t ∧
    t.readReg rd = s.readReg rs ∧ t.flags = s.flags ∧ t.pc = s.pc + 1 ∧ Untouched (some rd) s t

/-! ## Arithmetic -/

/-- R180, R171, R175: ADD completes in every state with the sum modulo 256, Z and N of it, C for a sum above 255, V for a
signed sum outside -128 to 127, the sources read before the destination is written, and nothing else changed. -/
def Obligations.AddStoresTheSum : Prop :=
  ∀ (rd rs1 rs2 : Reg) (s : State), ∃ t, exec (.add rd rs1 rs2) s = .next t ∧
    (t.readReg rd).toNat = ((s.readReg rs1).toNat + (s.readReg rs2).toNat) % 256 ∧
    (t.flags.z = true ↔ ((s.readReg rs1).toNat + (s.readReg rs2).toNat) % 256 = 0) ∧
    (t.flags.n = true ↔ 128 ≤ ((s.readReg rs1).toNat + (s.readReg rs2).toNat) % 256) ∧
    (t.flags.c = true ↔ 255 < (s.readReg rs1).toNat + (s.readReg rs2).toNat) ∧
    (t.flags.v = true ↔ ¬(-128 ≤ s8 (s.readReg rs1) + s8 (s.readReg rs2) ∧
      s8 (s.readReg rs1) + s8 (s.readReg rs2) ≤ 127)) ∧
    t.pc = s.pc + 1 ∧ Untouched (some rd) s t

/-- R181, R171, R175: SUB completes in every state with the difference modulo 256, Z and N of it, C for a borrow, V for a
signed difference outside -128 to 127, and nothing else changed. -/
def Obligations.SubStoresTheDifference : Prop :=
  ∀ (rd rs1 rs2 : Reg) (s : State), ∃ t, exec (.sub rd rs1 rs2) s = .next t ∧
    (t.readReg rd).toNat = ((s.readReg rs1).toNat + 256 - (s.readReg rs2).toNat) % 256 ∧
    (t.flags.z = true ↔ s.readReg rs1 = s.readReg rs2) ∧
    (t.flags.n = true ↔ 128 ≤ ((s.readReg rs1).toNat + 256 - (s.readReg rs2).toNat) % 256) ∧
    (t.flags.c = true ↔ (s.readReg rs1).toNat < (s.readReg rs2).toNat) ∧
    (t.flags.v = true ↔ ¬(-128 ≤ s8 (s.readReg rs1) - s8 (s.readReg rs2) ∧
      s8 (s.readReg rs1) - s8 (s.readReg rs2) ≤ 127)) ∧
    t.pc = s.pc + 1 ∧ Untouched (some rd) s t

/-- R182, R171, R176: MUL completes in every state with the product modulo 256, Z and N of it, C and V both for a product above
255, and nothing else changed. -/
def Obligations.MulStoresTheProduct : Prop :=
  ∀ (rd rs1 rs2 : Reg) (s : State), ∃ t, exec (.mul rd rs1 rs2) s = .next t ∧
    (t.readReg rd).toNat = ((s.readReg rs1).toNat * (s.readReg rs2).toNat) % 256 ∧
    (t.flags.z = true ↔ ((s.readReg rs1).toNat * (s.readReg rs2).toNat) % 256 = 0) ∧
    (t.flags.n = true ↔ 128 ≤ ((s.readReg rs1).toNat * (s.readReg rs2).toNat) % 256) ∧
    (t.flags.c = true ↔ 255 < (s.readReg rs1).toNat * (s.readReg rs2).toNat) ∧
    t.flags.v = t.flags.c ∧
    t.pc = s.pc + 1 ∧ Untouched (some rd) s t

/-- R183: INC completes in every state with `x + 1` modulo 256 and `C = (x = 255)`, `V = (x = 127)`, `Z = (x = 255)`, N bit 7 of
the result, and nothing else changed. -/
def Obligations.IncAddsOne : Prop :=
  ∀ (rx : Reg) (s : State), ∃ t, exec (.inc rx) s = .next t ∧
    (t.readReg rx).toNat = ((s.readReg rx).toNat + 1) % 256 ∧
    (t.flags.z = true ↔ (s.readReg rx).toNat = 255) ∧
    (t.flags.n = true ↔ 128 ≤ ((s.readReg rx).toNat + 1) % 256) ∧
    (t.flags.c = true ↔ (s.readReg rx).toNat = 255) ∧
    (t.flags.v = true ↔ (s.readReg rx).toNat = 127) ∧
    t.pc = s.pc + 1 ∧ Untouched (some rx) s t

/-- R184: DEC completes in every state with `x - 1` modulo 256 and `C = (x = 0)`, `V = (x = 128)`, `Z = (x = 1)`, N bit 7 of the
result, and nothing else changed. -/
def Obligations.DecSubtractsOne : Prop :=
  ∀ (rx : Reg) (s : State), ∃ t, exec (.dec rx) s = .next t ∧
    (t.readReg rx).toNat = ((s.readReg rx).toNat + 255) % 256 ∧
    (t.flags.z = true ↔ (s.readReg rx).toNat = 1) ∧
    (t.flags.n = true ↔ 128 ≤ ((s.readReg rx).toNat + 255) % 256) ∧
    (t.flags.c = true ↔ (s.readReg rx).toNat = 0) ∧
    (t.flags.v = true ↔ (s.readReg rx).toNat = 128) ∧
    t.pc = s.pc + 1 ∧ Untouched (some rx) s t

/-- R185: CMP completes in every state, sets the four flags as SUB of its operands does, and writes no register, memory cell,
MAR, MDR or bus. -/
def Obligations.CmpWritesOnlyFlags : Prop :=
  ∀ (rx ry : Reg) (s : State), ∃ t, exec (.cmp rx ry) s = .next t ∧
    (t.flags.z = true ↔ s.readReg rx = s.readReg ry) ∧
    (t.flags.n = true ↔ 128 ≤ ((s.readReg rx).toNat + 256 - (s.readReg ry).toNat) % 256) ∧
    (t.flags.c = true ↔ (s.readReg rx).toNat < (s.readReg ry).toNat) ∧
    (t.flags.v = true ↔ ¬(-128 ≤ s8 (s.readReg rx) - s8 (s.readReg ry) ∧
      s8 (s.readReg rx) - s8 (s.readReg ry) ≤ 127)) ∧
    (∀ rd, ∃ u, exec (.sub rd rx ry) s = .next u ∧ u.flags = t.flags) ∧
    t.pc = s.pc + 1 ∧ Untouched none s t

/-- R172, R173: the stored result is the exact one modulo 256; Zero is set iff it is 0, Negative iff its bit 7 is 1, for each
operation. -/
def Obligations.ZeroAndNegativeAreOfTheStoredResult : Prop :=
  ∀ (op : AluOp) (a b : Byte),
    ((alu op a b).y.toNat : Int) = op.exact a b % 256 ∧
    ((alu op a b).flags.z = true ↔ op.exact a b % 256 = 0) ∧
    ((alu op a b).flags.n = true ↔ 128 ≤ op.exact a b % 256)

/-- R174, R176: Carry is an ADD sum above 255, a SUB borrow (and clear with no borrow, equal operands among those), a MUL
product above 255; MUL's Overflow is the same bit as its Carry. -/
def Obligations.CarryIsCarryOrBorrow : Prop :=
  ∀ a b : Byte,
    ((alu .add a b).flags.c = true ↔ 255 < a.toNat + b.toNat) ∧
    ((alu .sub a b).flags.c = true ↔ a.toNat < b.toNat) ∧
    ((alu .mul a b).flags.c = true ↔ 255 < a.toNat * b.toNat) ∧
    ((alu .mul a b).flags.v = (alu .mul a b).flags.c)

/-- R175: Overflow of ADD and SUB is set exactly when the exact two's-complement result lies outside -128 to 127, and that is
the sign-bit test; Overflow of MUL is a product above 255. -/
def Obligations.OverflowIsSignedOverflow : Prop :=
  ∀ a b : Byte,
    ((alu .add a b).flags.v = true ↔ ¬(-128 ≤ s8 a + s8 b ∧ s8 a + s8 b ≤ 127)) ∧
    ((alu .add a b).flags.v = true ↔
      (128 ≤ a.toNat ↔ 128 ≤ b.toNat) ∧ ¬(128 ≤ (alu .add a b).y.toNat ↔ 128 ≤ a.toNat)) ∧
    ((alu .sub a b).flags.v = true ↔ ¬(-128 ≤ s8 a - s8 b ∧ s8 a - s8 b ≤ 127)) ∧
    ((alu .sub a b).flags.v = true ↔
      ¬(128 ≤ a.toNat ↔ 128 ≤ b.toNat) ∧ ¬(128 ≤ (alu .sub a b).y.toNat ↔ 128 ≤ a.toNat)) ∧
    ((alu .mul a b).flags.v = true ↔ 255 < a.toNat * b.toNat)

/-! ## Control transfer -/

/-- R202, the execute part: JMP completes in every state and changes nothing but the pc, which takes the target. -/
def Obligations.JmpGoesToItsLine : Prop :=
  ∀ (line : Line) (s : State), ∃ t, exec (.jmp line) s = .next t ∧
    t.pc = line ∧ t.flags = s.flags ∧ Untouched none s t

/-- R203 to R206, the execute part: each conditional jump completes in every state and changes nothing but the pc, which takes
the target if Z, not Z, C, N respectively, else `pc + 1`. -/
def Obligations.ConditionalJumpsFollowTheirFlag : Prop :=
  ∀ (line : Line) (s : State),
    (∃ t, exec (.jz line) s = .next t ∧ (s.flags.z = true → t.pc = line) ∧ (s.flags.z = false → t.pc = s.pc + 1) ∧
      t.flags = s.flags ∧ Untouched none s t) ∧
    (∃ t, exec (.jnz line) s = .next t ∧ (s.flags.z = false → t.pc = line) ∧ (s.flags.z = true → t.pc = s.pc + 1) ∧
      t.flags = s.flags ∧ Untouched none s t) ∧
    (∃ t, exec (.jc line) s = .next t ∧ (s.flags.c = true → t.pc = line) ∧ (s.flags.c = false → t.pc = s.pc + 1) ∧
      t.flags = s.flags ∧ Untouched none s t) ∧
    (∃ t, exec (.jn line) s = .next t ∧ (s.flags.n = true → t.pc = line) ∧ (s.flags.n = false → t.pc = s.pc + 1) ∧
      t.flags = s.flags ∧ Untouched none s t)

/-- R207: NOP completes in every state and only advances the pc; a whole NOP step changes only IR, ABUS and CBUS beside it. -/
def Obligations.NopOnlyAdvances : Prop :=
  (∀ s : State, ∃ t, exec .nop s = .next t ∧ t.pc = s.pc + 1 ∧ t.flags = s.flags ∧ Untouched none s t) ∧
  (∀ s : State, s.pc.toNat < s.plen.toNat → s.fetchWord = 0xE000 →
    step s = .next { s with pc := s.pc + 1, ir := 0xE000, abus := s.pc, cbus := .fetch })

/-! ## Host interface -/

/-- R53: reset gives every part of S the listed value and leaves PLEN and IMEM alone, from every state, the power-up state
among them. -/
def Obligations.ResetValues : Prop :=
  ∀ s : State,
    (∀ r, s.hostReset.readReg r = 0) ∧ (∀ a, s.hostReset.mem.read a = 0) ∧ s.hostReset.pc = 0 ∧ s.hostReset.ir = 0x0000 ∧
    s.hostReset.mar = 0 ∧ s.hostReset.mdr = 0 ∧
    s.hostReset.flags.z = false ∧ s.hostReset.flags.n = false ∧ s.hostReset.flags.c = false ∧
    s.hostReset.flags.v = false ∧
    s.hostReset.abus = 0 ∧ s.hostReset.dbus = 0 ∧ s.hostReset.cbus.code = 0b00 ∧
    ProgramSame s s.hostReset ∧ s.hostReset.hostRead = Sys2Proof.core.reset.hostRead

/-- R70: for at most 255 words, load writes IMEM[i] for i below n, sets PLEN to n, leaves the other lines as they were, and
changes no part of S; the lines from n on are never fetched, so with any other contents there a step does the same. -/
def Obligations.LoadProgramWritesImemAndPlen : Prop :=
  ∀ (s : State) (words : List Word), words.length ≤ 255 →
    ∃ t, s.loadProgram words = some t ∧ t.plen.toNat = words.length ∧
      (∀ (k : Nat) (w : Word), words[k]? = some w → t.imem.read k = w) ∧
      (∀ k : Nat, words.length ≤ k → t.imem.read k = s.imem.read k) ∧
      t.hostRead = s.hostRead ∧
      ∀ q : ProgramStore, (∀ k : Nat, k < words.length → q.read k = t.imem.read k) →
        ({ t with imem := q } : State).result = t.result ∧
        ({ t with imem := q } : State).after.hostRead = t.after.hostRead

/-- R255, R251: load then reset and reset then load give the same state, from every power-up state, and the first step after
them fetches line 0, or is halted where the program is empty. -/
def Obligations.BootOrderDoesNotMatter : Prop :=
  ∀ (s : State) (words : List Word),
    s.boot words = s.hostReset.loadProgram words ∧
    (∀ (t : State) (w : Word) (rest : List Word), words = w :: rest → s.boot words = some t → t.fetchWord = w) ∧
    (∀ t : State, words = [] → s.boot words = some t → t.result = .halted)

/-- R146: restoring the snapshot from before a step gives back the state before it, and stepping again gives the state after
it. -/
def Obligations.RestoreUndoesAStepAndStepRedoesIt : Prop :=
  ∀ s t : State, step s = .next t →
    t.hostWrite s.hostRead = s ∧ step (t.hostWrite s.hostRead) = .next t

/-- R144: runAll is that many single steps with the trace of each, it stops at the first HALTED or ERROR, and only the host's
bound (the model's argument, log entry 16) stops it otherwise; `JMP 0` at line 0 never reaches HALTED. -/
def Obligations.RunAllIsRepeatedStepping : Prop :=
  (∀ (n : Nat) (s t : State) (traces : List BusTrace) (why : RunEnd), s.runAll n = (traces, t, why) →
    Sys2Proof.core.run traces.length s = .next t ∧ t = State.after^[traces.length] s ∧
    (∀ (k : Nat) (trace : BusTrace), traces[k]? = some trace → (State.after^[k] s).result = .ok trace) ∧
    (why = .halted → t.result = .halted) ∧
    (∀ c, why = .error c → t.result = .error c) ∧
    (why = .bound → traces.length = n)) ∧
  (∀ (n : Nat) (s : State), s.pc = 0 → s.plen ≠ 0 → s.imem.read 0 = 0x9000 → (s.runAll n).2.2 = .bound)

/-- R142: the 4-bit result is status 00 for OK, 01 for HALTED, 10 for ERROR, with cause 01, 10 or 11 for the three errors and 00
otherwise; status 11 is never produced. -/
def Obligations.ResultPortCodes : Prop :=
  (∀ trace, (StepResult.ok trace).code = 0b0000) ∧
  StepResult.halted.code = 0b0100 ∧
  (StepResult.error .illegalOpcode).code = 0b1001 ∧
  (StepResult.error .reservedBits).code = 0b1010 ∧
  (StepResult.error .badTarget).code = 0b1011 ∧
  (∀ s : State, s.result.code.extractLsb' 2 2 ≠ 0b11)

/-- R41: FLAGS[3] is Z, FLAGS[2] is N, FLAGS[1] is V, FLAGS[0] is C, and a packed value written back gives the flags. -/
def Obligations.FlagsPackAsZnvc : Prop :=
  (∀ f : Flags, f.pack.getLsbD 3 = f.z ∧ f.pack.getLsbD 2 = f.n ∧ f.pack.getLsbD 1 = f.v ∧ f.pack.getLsbD 0 = f.c) ∧
  (∀ f : Flags, Flags.unpack f.pack = f) ∧
  (∀ p : BitVec 4, (Flags.unpack p).pack = p)

/-- R158, R2: the eight sub-blocks composed by their ports give, from every state, the state and the result port of the step:
the structural split adds no behaviour. -/
def Obligations.DatapathRefinesTheStep : Prop :=
  ∀ s : State, datapathStep s = (s.after, s.result.code)

/-! ## The whole machine -/

/-- A step keeps `pc ≤ PLEN` (R33, R35) and the canonical form of both stores, from every state that has them. The canonical form
is the model's own (log entries 4 and 21): the spec has arrays there. -/
def Obligations.EveryStepKeepsTheInvariant : Prop :=
  ∀ s t : State, s.Inv → step s = .next t → t.Inv

/-- The invariant holds at reset, and reset establishes it from every state whose instruction store is canonical. That
`core.reset` has PLEN 0 and no line loaded is the model's choice (log entry 3), and so is the canonical form (log entries 4 and
21); the second clause is for every PLEN and every program. -/
def Obligations.ResetEstablishesTheInvariant : Prop :=
  Sys2Proof.core.reset.Inv ∧ ∀ s : State, s.imem.wf = true → s.hostReset.Inv

/-- R222, R71: where every word of the loaded program passes the decode checks, no run from any state faults. -/
def Obligations.ValidProgramsNeverFault : Prop :=
  ∀ s : State, s.ProgramValid → SafeRun s

/-- R71, R119: a source that assembles, loaded and reset on any machine, is a valid program, and no run of it faults. Lines and
white space are as log entry 17 has them. -/
def Obligations.AssembledProgramsNeverFault : Prop :=
  ∀ (src : List Char) (p : List Instr) (s : State), assemble src = .ok p →
    ∃ t, s.boot (p.map encode) = some t ∧ t.ProgramValid ∧ SafeRun t

/-- Equal contents are equal data: two canonical memories that read alike at every address are the same list. -/
def Obligations.MemoriesWithEqualCellsAreEqual : Prop :=
  ∀ m m' : Memory, m.wf = true → m'.wf = true → (∀ a : Addr, m.read a = m'.read a) → m = m'

/-! ## Assembler -/

/-- R121, R117: assembling the listing of a well-formed program gives the program back. That a line ends at a line feed is the
model's choice (log entry 17). -/
def Obligations.DisassembleThenAssemble : Prop :=
  ∀ p : List Instr, programWellFormed p = true → assemble (disassembleProgram p) = .ok p

/-- R116, R119: every program the assembler yields fits the capacity, has only jump targets that are its lines, and has one
instruction for each instruction line of the source (lines and white space as log entry 17 has them). -/
def Obligations.AssembledProgramsAreWellFormed : Prop :=
  ∀ (src : List Char) (p : List Instr), assemble src = .ok p →
    programWellFormed p = true ∧ p.length = (instructionLines src).length

/-- R119: validation lists every error of every line under that line's number; a source with any error yields no Program; a
line at or past index 255 is an error of kind "operand out of range/kind". Which errors a line has is the model's choice where
log entries 18 and 22 say. -/
def Obligations.ValidationListsEveryError : Prop :=
  ∀ src : List Char,
    (∀ (k : Nat) (kind : ErrorKind), { line := k, kind := kind } ∈ validate src ↔
      ∃ l, (instructionLines src)[k]? = some l ∧ kind ∈ lineErrors (instructionLines src).length k l) ∧
    (∀ errors, assemble src = .error errors ↔ validate src = errors ∧ errors ≠ []) ∧
    (∀ (k : Nat) (l : List Char), (instructionLines src)[k]? = some l → 255 ≤ k →
      { line := k, kind := .operandRange } ∈ validate src) ∧
    (∀ (k : Nat) (l : List Char) (es : List ErrorKind) (kind : ErrorKind), (instructionLines src)[k]? = some l →
      parseLine (instructionLines src).length l = .error es → kind ∈ es → { line := k, kind := kind } ∈ validate src)

/-- R112: opcodes are read in any case: a token is an opcode exactly when it is the mnemonic once in upper case, and any other
is an error of its line, whatever its operands. -/
def Obligations.OpcodesAreCaseInsensitive : Prop :=
  ∀ token : List Char,
    parseMnemonic (token.map Char.toLower) = parseMnemonic token ∧
    parseMnemonic (token.map Char.toUpper) = parseMnemonic token ∧
    (∀ m : Mnemonic, parseMnemonic token = some m ↔ token.map Char.toUpper = m.name) ∧
    ((∀ m : Mnemonic, token.map Char.toUpper ≠ m.name) → parseMnemonic token = none ∧
      ∀ (plen : Nat) (line : List Char), opcodeToken line = token →
        ∃ errors, parseLine plen line = .error errors ∧ .unknownOpcode ∈ errors)

/-- R113: a register operand is exactly an upper-case R and one digit 0 to 7; every other token is an error; `ADD R9, R0, R1` is
an error on its line and no Program. -/
def Obligations.RegisterTokensAreExact : Prop :=
  (∀ (plen : Nat) (token : List Char),
    (∀ r : Reg, operandValue plen .reg token = .ok r.toNat ↔ token = ['R', Char.ofNat (48 + r.toNat)]) ∧
    ((∀ r : Reg, token ≠ ['R', Char.ofNat (48 + r.toNat)]) → operandValue plen .reg token = .error .operandRange)) ∧
  assemble ['A', 'D', 'D', ' ', 'R', '9', ',', ' ', 'R', '0', ',', ' ', 'R', '1'] =
    .error [{ line := 0, kind := .operandRange }]

/-- R114, R115: an immediate is an unsigned decimal integer 0 to 255 and an address one of 0 to 63, leading zeros allowed, and
a jump target is one below the program's length (R116); a larger value, an empty token and a token with any other character
are errors; no value wraps, since an error of an operand is an error of its line. -/
def Obligations.ImmediateTokensAreDecimal : Prop :=
  (∀ plen n zeros : Nat,
    (n < 256 → operandValue plen .val (List.replicate zeros '0' ++ decimal n) = .ok n) ∧
    (256 ≤ n → operandValue plen .val (List.replicate zeros '0' ++ decimal n) = .error .operandRange) ∧
    (n < 64 → operandValue plen .addr (List.replicate zeros '0' ++ decimal n) = .ok n) ∧
    (64 ≤ n → operandValue plen .addr (List.replicate zeros '0' ++ decimal n) = .error .operandRange) ∧
    (n < plen → operandValue plen .line (List.replicate zeros '0' ++ decimal n) = .ok n) ∧
    (plen ≤ n → operandValue plen .line (List.replicate zeros '0' ++ decimal n) = .error .targetBounds)) ∧
  (∀ (plen : Nat) (kind : OperandKind), kind ≠ .reg →
    operandValue plen kind [] = .error .operandRange ∧
    ∀ token : List Char, (∃ c ∈ token, ¬('0' ≤ c ∧ c ≤ '9')) → operandValue plen kind token = .error .operandRange) ∧
  (∀ (plen k : Nat) (line token : List Char) (m : Mnemonic) (shape : List OperandKind) (kind : OperandKind) (e : ErrorKind),
    parseMnemonic (opcodeToken line) = some m → shape ∈ m.shapes → shape.length = (operandTokens line).length →
    shape[k]? = some kind → (operandTokens line)[k]? = some token → operandValue plen kind token = .error e →
    ∃ errors, parseLine plen line = .error errors ∧ e ∈ errors)

/-- R103: the two-operand form of ADD, SUB and MUL assembles to the three-operand instruction with `Rs1 = Rd`, as the
three-operand spelling of that does. -/
def Obligations.TwoOperandFormsExpand : Prop :=
  ∀ (plen : Nat) (rd rs : Reg),
    parseLine plen (['A', 'D', 'D', ' '] ++ regName rd ++ [',', ' '] ++ regName rs) = .ok (.add rd rd rs) ∧
    parseLine plen (['S', 'U', 'B', ' '] ++ regName rd ++ [',', ' '] ++ regName rs) = .ok (.sub rd rd rs) ∧
    parseLine plen (['M', 'U', 'L', ' '] ++ regName rd ++ [',', ' '] ++ regName rs) = .ok (.mul rd rd rs) ∧
    parseLine plen (disassemble (.add rd rd rs)) = .ok (.add rd rd rs) ∧
    parseLine plen (disassemble (.sub rd rd rs)) = .ok (.sub rd rd rs) ∧
    parseLine plen (disassemble (.mul rd rd rs)) = .ok (.mul rd rd rs)

/-! ## Control Bus tag -/

/-- R45: the codes of the Control Bus tag and the tag of each code; reset leaves IDLE, a completed step never does: LOAD leaves
IMM, STORE leaves MEMWR and every other instruction FETCH. -/
def Obligations.BusTagCodes : Prop :=
  BusTag.idle.code = 0b00 ∧ BusTag.fetch.code = 0b01 ∧ BusTag.imm.code = 0b10 ∧ BusTag.memwr.code = 0b11 ∧
  (∀ tag : BusTag, BusTag.ofCode tag.code = tag) ∧
  (∀ c : BitVec 2, (BusTag.ofCode c).code = c) ∧
  (∀ s : State, s.hostReset.cbus = .idle) ∧
  (∀ (s : State) (i : Instr), s.pc.toNat < s.plen.toNat → decode s.fetchWord s.plen = .ok i →
    ∃ t, step s = .next t ∧
      (i.mnemonic = .load → t.cbus = .imm) ∧
      (i.mnemonic = .store → t.cbus = .memwr) ∧
      (i.mnemonic ≠ .load → i.mnemonic ≠ .store → t.cbus = .fetch))
end

