-- ==== Sys2Proof/Laws/Alu.lean ====
section
/-! SUPPORT. The fields of the ALU's answer, and its results as arithmetic on bytes. -/

namespace Sys2Proof.Machine

variable (op : AluOp) (a b : Byte)

theorem alu_z : (alu op a b).flags.z = zeroFlag (alu op a b).y := rfl
theorem alu_n : (alu op a b).flags.n = negativeFlag (alu op a b).y := rfl
theorem alu_c : (alu op a b).flags.c = carryFlag op a b := rfl
theorem alu_v : (alu op a b).flags.v = overflowFlag op a b (alu op a b).y := rfl

/-- Bit 7 of a byte as an unsigned bound. -/
theorem getLsbD_seven (y : Byte) : y.getLsbD 7 = decide (128 ≤ y.toNat) := by
  have h : y.getLsbD 7 = y.msb := by simp [BitVec.msb_eq_getLsbD_last]
  rw [h, BitVec.msb_eq_decide]

theorem alu_add_y : (alu .add a b).y = a + b := by
  apply BitVec.eq_of_toNat_eq
  simp only [alu, AluOp.exact, BitVec.toNat_ofInt, BitVec.toNat_add]
  omega

theorem alu_sub_y : (alu .sub a b).y = a - b := by
  apply BitVec.eq_of_toNat_eq
  have hb := b.isLt
  simp only [alu, AluOp.exact, BitVec.toNat_ofInt, BitVec.toNat_sub]
  omega

theorem alu_mul_y : (alu .mul a b).y = a * b := by
  apply BitVec.eq_of_toNat_eq
  simp only [alu, AluOp.exact, BitVec.toNat_ofInt, BitVec.toNat_mul]
  rw [← Int.natCast_mul]
  omega

end Sys2Proof.Machine
end

