-- ==== Sys2Proof/Laws/Assembler.lean ====
section
/-! SUPPORT. What collecting a line's operands gives, and when a line's operands stop it. -/

namespace Sys2Proof

/-- The collected errors are the errors among the operands. -/
theorem mem_collectOperands_errors (vs : List (Except ErrorKind Nat)) (e : ErrorKind) :
    e ∈ (collectOperands vs).1 ↔ .error e ∈ vs := by
  induction vs with
  | nil => simp [collectOperands]
  | cons v vs ih => cases v <;> simp [collectOperands, ih]

/-- Two shapes of one opcode that have the same length are the same shape. -/
theorem Mnemonic.shape_of_length (m : Mnemonic) {a b : List OperandKind} (ha : a ∈ m.shapes) (hb : b ∈ m.shapes)
    (h : a.length = b.length) : a = b := by
  cases m <;> simp only [Mnemonic.shapes, List.mem_cons, List.not_mem_nil, or_false] at ha hb <;>
    (try rcases ha with rfl | rfl) <;> (try rcases hb with rfl | rfl) <;> simp_all

/-- The shape that a line's operands are read by is the one that has their number. -/
theorem Mnemonic.find_shape (m : Mnemonic) {shape : List OperandKind} {n : Nat} (hs : shape ∈ m.shapes)
    (hn : shape.length = n) : m.shapes.find? (fun s => s.length == n) = some shape := by
  cases hf : m.shapes.find? (fun s => s.length == n) with
  | none => exact absurd hn (by simpa using List.find?_eq_none.1 hf shape hs)
  | some found =>
    have hl : found.length = n := by simpa using List.find?_some hf
    rw [m.shape_of_length (List.mem_of_find?_eq_some hf) hs (hl.trans hn.symm)]

end Sys2Proof
end

