-- ==== Sys2Proof/Laws/Memory.lean ====
section
/-! SUPPORT. The laws of the sparse stores: reading after a write, and that every write keeps the canonical form. -/

namespace Sys2Proof.Machine

variable {w : Nat}

/-! ### Reading after a write -/

theorem cellsRead_erase_same (m : List (Nat × BitVec w)) (a : Nat) : cellsRead (cellsErase m a) a = 0#w := by
  induction m with
  | nil => rfl
  | cons e rest ih =>
    obtain ⟨k, v⟩ := e
    by_cases h : k = a <;> simp [cellsErase, cellsRead, h, ih]

theorem cellsRead_erase_other (m : List (Nat × BitVec w)) (a b : Nat) (h : a ≠ b) :
    cellsRead (cellsErase m a) b = cellsRead m b := by
  induction m with
  | nil => rfl
  | cons e rest ih =>
    obtain ⟨k, v⟩ := e
    by_cases hk : k = a
    · subst hk; simp [cellsErase, cellsRead, h, ih]
    · simp [cellsErase, cellsRead, hk, ih]

theorem cellsRead_insert_same (m : List (Nat × BitVec w)) (a : Nat) (v : BitVec w) :
    cellsRead (cellsInsert m a v) a = v := by
  induction m with
  | nil => simp [cellsInsert, cellsRead]
  | cons e rest ih =>
    obtain ⟨k, u⟩ := e
    by_cases hk : k < a
    · have : k ≠ a := by omega
      simp [cellsInsert, cellsRead, hk, this, ih]
    · simp [cellsInsert, cellsRead, hk]

theorem cellsRead_insert_other (m : List (Nat × BitVec w)) (a b : Nat) (v : BitVec w) (h : a ≠ b) :
    cellsRead (cellsInsert m a v) b = cellsRead m b := by
  induction m with
  | nil => simp [cellsInsert, cellsRead, h]
  | cons e rest ih =>
    obtain ⟨k, u⟩ := e
    by_cases hk : k < a <;> simp [cellsInsert, cellsRead, hk, h, ih]

/-- A read after a write to the same place gives the value written, in every list. -/
@[simp] theorem cellsRead_write_same (m : List (Nat × BitVec w)) (a : Nat) (v : BitVec w) :
    cellsRead (cellsWrite m a v) a = v := by
  by_cases h : v = 0#w
  · simp [cellsWrite, h, cellsRead_erase_same]
  · simp [cellsWrite, h, cellsRead_insert_same]

/-- A write leaves every other place alone, in every list. -/
theorem cellsRead_write_other (m : List (Nat × BitVec w)) (a b : Nat) (v : BitVec w) (h : a ≠ b) :
    cellsRead (cellsWrite m a v) b = cellsRead m b := by
  by_cases hv : v = 0#w
  · simp [cellsWrite, hv, cellsRead_erase_other m a b h]
  · simp [cellsWrite, hv, cellsRead_insert_other _ a b v h, cellsRead_erase_other m a b h]

/-! ### Canonical form -/

theorem cellsCanonical_mono {lo lo' hi : Nat} (m : List (Nat × BitVec w)) (h : lo' ≤ lo)
    (hm : cellsCanonical lo hi m = true) : cellsCanonical lo' hi m = true := by
  cases m with
  | nil => rfl
  | cons e rest =>
    obtain ⟨k, v⟩ := e
    simp only [cellsCanonical, Bool.and_eq_true, decide_eq_true_eq] at hm ⊢
    exact ⟨⟨⟨by omega, hm.1.1.2⟩, hm.1.2⟩, hm.2⟩

theorem cellsErase_canonical {lo hi : Nat} (m : List (Nat × BitVec w)) (a : Nat)
    (hm : cellsCanonical lo hi m = true) : cellsCanonical lo hi (cellsErase m a) = true := by
  induction m generalizing lo with
  | nil => rfl
  | cons e rest ih =>
    obtain ⟨k, v⟩ := e
    simp only [cellsCanonical, Bool.and_eq_true, decide_eq_true_eq] at hm
    by_cases hk : k = a
    · simp only [cellsErase, hk, if_true]
      exact cellsCanonical_mono _ (by omega) (ih hm.2)
    · simp only [cellsErase, hk, if_false, cellsCanonical, Bool.and_eq_true, decide_eq_true_eq]
      exact ⟨hm.1, ih hm.2⟩

/-- An insertion keeps the canonical form where the place is not listed. -/
theorem cellsInsert_canonical {lo hi : Nat} (m : List (Nat × BitVec w)) (a : Nat) (v : BitVec w) (hlo : lo ≤ a)
    (hhi : a < hi) (hv : v ≠ 0#w) (habs : ∀ e ∈ m, e.1 ≠ a) (hm : cellsCanonical lo hi m = true) :
    cellsCanonical lo hi (cellsInsert m a v) = true := by
  induction m generalizing lo with
  | nil => simp [cellsInsert, cellsCanonical, hlo, hhi, hv]
  | cons e rest ih =>
    obtain ⟨k, u⟩ := e
    have hk := habs (k, u) (List.mem_cons_self ..)
    simp only [cellsCanonical, Bool.and_eq_true, decide_eq_true_eq] at hm
    by_cases hka : k < a
    · simp only [cellsInsert, hka, if_true, cellsCanonical, Bool.and_eq_true, decide_eq_true_eq]
      exact ⟨hm.1, ih (by omega) (fun e he => habs e (List.mem_cons_of_mem _ he)) hm.2⟩
    · simp only [cellsInsert, hka, if_false, cellsCanonical, Bool.and_eq_true, decide_eq_true_eq]
      have hne : k ≠ a := hk
      exact ⟨⟨⟨hlo, hhi⟩, hv⟩, ⟨⟨by omega, hm.1.1.2⟩, hm.1.2⟩, hm.2⟩

theorem cellsErase_absent (m : List (Nat × BitVec w)) (a : Nat) : ∀ e ∈ cellsErase m a, e.1 ≠ a := by
  induction m with
  | nil => intro e he; cases he
  | cons e rest ih =>
    obtain ⟨k, v⟩ := e
    by_cases hk : k = a
    · simpa [cellsErase, hk] using ih
    · intro e he
      simp only [cellsErase, hk, if_false, List.mem_cons] at he
      rcases he with rfl | he
      · exact hk
      · exact ih e he

/-- Every write keeps the canonical form. -/
theorem cellsWrite_canonical {hi : Nat} (m : List (Nat × BitVec w)) (a : Nat) (v : BitVec w) (ha : a < hi)
    (hm : cellsCanonical 0 hi m = true) : cellsCanonical 0 hi (cellsWrite m a v) = true := by
  by_cases h : v = 0#w
  · simpa [cellsWrite, h] using cellsErase_canonical m a hm
  · simpa [cellsWrite, h] using
      cellsInsert_canonical _ a v (Nat.zero_le a) ha h (cellsErase_absent m a) (cellsErase_canonical m a hm)

/-- Nothing is listed below the first place of a canonical list. -/
theorem cellsRead_below {lo hi a : Nat} (m : List (Nat × BitVec w)) (hm : cellsCanonical lo hi m = true) (ha : a < lo) :
    cellsRead m a = 0#w := by
  induction m generalizing lo with
  | nil => rfl
  | cons e rest ih =>
    obtain ⟨k, v⟩ := e
    simp only [cellsCanonical, Bool.and_eq_true, decide_eq_true_eq] at hm
    have : k ≠ a := by omega
    simp [cellsRead, this, ih hm.2 (by omega)]

/-! ### The data memory -/

@[simp] theorem Memory.read_write_same (m : Memory) (a : Addr) (v : Byte) : (m.write a v).read a = v :=
  cellsRead_write_same m a.toNat v

theorem Memory.read_write_other (m : Memory) (a b : Addr) (v : Byte) (h : a ≠ b) : (m.write a v).read b = m.read b :=
  cellsRead_write_other m a.toNat b.toNat v (fun e => h (BitVec.eq_of_toNat_eq e))

theorem Memory.write_wf (m : Memory) (a : Addr) (v : Byte) (h : m.wf = true) : (m.write a v).wf = true :=
  cellsWrite_canonical m a.toNat v a.isLt h

theorem Memory.reset_wf : Memory.wf State.reset.mem = true := rfl

/-! ### The instruction store -/

@[simp] theorem ProgramStore.read_write_same (p : ProgramStore) (l : Nat) (x : Word) : (p.write l x).read l = x :=
  cellsRead_write_same p l x

theorem ProgramStore.read_write_other (p : ProgramStore) (l k : Nat) (x : Word) (h : l ≠ k) :
    (p.write l x).read k = p.read k :=
  cellsRead_write_other p l k x h

theorem ProgramStore.write_wf (p : ProgramStore) (l : Nat) (x : Word) (hl : l < Config.maxProgLen) (h : p.wf = true) :
    (p.write l x).wf = true :=
  cellsWrite_canonical p l x hl h

/-- Program load leaves the lines below its first line alone. -/
theorem ProgramStore.read_writeAll_below (p : ProgramStore) (l k : Nat) (ws : List Word) (h : k < l) :
    (p.writeAll l ws).read k = p.read k := by
  induction ws generalizing p l with
  | nil => rfl
  | cons x ws ih =>
    simp only [ProgramStore.writeAll]
    rw [ih _ _ (by omega), ProgramStore.read_write_other _ _ _ _ (by omega)]

/-- Program load keeps the canonical form where its lines are lines of the store. -/
theorem ProgramStore.writeAll_wf (p : ProgramStore) (l : Nat) (ws : List Word) (hl : l + ws.length ≤ Config.maxProgLen)
    (h : p.wf = true) : (p.writeAll l ws).wf = true := by
  induction ws generalizing p l with
  | nil => exact h
  | cons x ws ih =>
    simp only [List.length_cons] at hl
    exact ih _ _ (by omega) (p.write_wf l x (by omega) h)

end Sys2Proof.Machine
end

