-- ==== Sys2Proof/Laws/PerInstr.lean ====
section
/-! SUPPORT. Statements made per instruction, as syntax: the word an instruction encodes to carries its row's match bits
(30_encoding.md R99, R118). -/

namespace Sys2Proof.Laws.EncodesToRow

/-- The encoded word matches the row of the instruction's mnemonic: its opcode bits, and zeros in the reserved bits. -/
def Statement (i : Instr) : Prop := i.mnemonic.encodedBy (encode i) = true

theorem load (rx : Reg) (val : Byte) : Statement (.load rx val) := by
  unfold Statement; revert rx val; decide

theorem store (rx : Reg) (addr : Addr) : Statement (.store rx addr) := by
  unfold Statement; revert rx addr; decide

theorem mov (rd rs : Reg) : Statement (.mov rd rs) := by
  unfold Statement; revert rd rs; decide

theorem add (rd rs1 rs2 : Reg) : Statement (.add rd rs1 rs2) := by
  unfold Statement; revert rd rs1 rs2; decide

theorem sub (rd rs1 rs2 : Reg) : Statement (.sub rd rs1 rs2) := by
  unfold Statement; revert rd rs1 rs2; decide

theorem mul (rd rs1 rs2 : Reg) : Statement (.mul rd rs1 rs2) := by
  unfold Statement; revert rd rs1 rs2; decide

theorem inc (rx : Reg) : Statement (.inc rx) := by
  unfold Statement; revert rx; decide

theorem dec (rx : Reg) : Statement (.dec rx) := by
  unfold Statement; revert rx; decide

theorem cmp (rx ry : Reg) : Statement (.cmp rx ry) := by
  unfold Statement; revert rx ry; decide

theorem jmp (line : Line) : Statement (.jmp line) := by
  unfold Statement; revert line; decide

theorem jz (line : Line) : Statement (.jz line) := by
  unfold Statement; revert line; decide

theorem jnz (line : Line) : Statement (.jnz line) := by
  unfold Statement; revert line; decide

theorem jc (line : Line) : Statement (.jc line) := by
  unfold Statement; revert line; decide

theorem jn (line : Line) : Statement (.jn line) := by
  unfold Statement; revert line; decide

theorem nop : Statement (.nop) := by
  unfold Statement; decide

end Sys2Proof.Laws.EncodesToRow
end

