-- ==== Sys2Proof/Laws/State.lean ====
section
/-! SUPPORT. One lemma per field per update of State, and what a register reads as after each update, so that no later proof
unfolds a record update. -/

namespace Sys2Proof.Machine

variable (s : State)

/-! ### Reading a register after writing one -/

@[simp] theorem readReg_writeReg_same (r : Reg) (v : Byte) : (s.writeReg r v).readReg r = v := by
  simp [State.readReg, State.writeReg]

theorem readReg_writeReg_of_ne (r q : Reg) (v : Byte) (h : r ≠ q) : (s.writeReg r v).readReg q = s.readReg q := by
  have hn : r.toNat ≠ q.toNat := fun e => h (BitVec.eq_of_toNat_eq e)
  simp [State.readReg, State.writeReg, hn]

theorem readReg_writeReg (r q : Reg) (v : Byte) :
    (s.writeReg r v).readReg q = if r = q then v else s.readReg q := by
  by_cases h : r = q
  · subst h; simp
  · simp [h, readReg_writeReg_of_ne s r q v h]

theorem readReg_eq_of_regs {s t : State} (h : t.regs = s.regs) (r : Reg) : t.readReg r = s.readReg r := by
  simp [State.readReg, h]

theorem readReg_commitAlu (rd q : Reg) (out : AluOut) :
    (s.commitAlu rd out).readReg q = if rd = q then out.y else s.readReg q :=
  readReg_writeReg s rd q out.y

@[simp] theorem readReg_setFlags (f : Flags) (r : Reg) : (s.setFlags f).readReg r = s.readReg r := rfl
@[simp] theorem readReg_setPc (t : Line) (r : Reg) : (s.setPc t).readReg r = s.readReg r := rfl
@[simp] theorem readReg_advance (r : Reg) : (s.advance).readReg r = s.readReg r := rfl
@[simp] theorem readReg_branch (taken : Bool) (line : Line) (r : Reg) : (s.branch taken line).readReg r = s.readReg r := rfl
@[simp] theorem readReg_latchFetch (w : Word) (r : Reg) : (s.latchFetch w).readReg r = s.readReg r := rfl
@[simp] theorem readReg_driveImm (v : Byte) (r : Reg) : (s.driveImm v).readReg r = s.readReg r := rfl
@[simp] theorem readReg_storeByte (a : Addr) (v : Byte) (r : Reg) : (s.storeByte a v).readReg r = s.readReg r := rfl

/-! ### writeReg -/

@[simp] theorem writeReg_regs (r : Reg) (v : Byte) : (s.writeReg r v).regs = s.regs.set r.toNat v r.isLt := rfl
@[simp] theorem writeReg_mem (r : Reg) (v : Byte) : (s.writeReg r v).mem = s.mem := rfl
@[simp] theorem writeReg_pc (r : Reg) (v : Byte) : (s.writeReg r v).pc = s.pc := rfl
@[simp] theorem writeReg_ir (r : Reg) (v : Byte) : (s.writeReg r v).ir = s.ir := rfl
@[simp] theorem writeReg_mar (r : Reg) (v : Byte) : (s.writeReg r v).mar = s.mar := rfl
@[simp] theorem writeReg_mdr (r : Reg) (v : Byte) : (s.writeReg r v).mdr = s.mdr := rfl
@[simp] theorem writeReg_flags (r : Reg) (v : Byte) : (s.writeReg r v).flags = s.flags := rfl
@[simp] theorem writeReg_abus (r : Reg) (v : Byte) : (s.writeReg r v).abus = s.abus := rfl
@[simp] theorem writeReg_dbus (r : Reg) (v : Byte) : (s.writeReg r v).dbus = s.dbus := rfl
@[simp] theorem writeReg_cbus (r : Reg) (v : Byte) : (s.writeReg r v).cbus = s.cbus := rfl
@[simp] theorem writeReg_imem (r : Reg) (v : Byte) : (s.writeReg r v).imem = s.imem := rfl
@[simp] theorem writeReg_plen (r : Reg) (v : Byte) : (s.writeReg r v).plen = s.plen := rfl

/-! ### setFlags -/

@[simp] theorem setFlags_regs (f : Flags) : (s.setFlags f).regs = s.regs := rfl
@[simp] theorem setFlags_mem (f : Flags) : (s.setFlags f).mem = s.mem := rfl
@[simp] theorem setFlags_pc (f : Flags) : (s.setFlags f).pc = s.pc := rfl
@[simp] theorem setFlags_ir (f : Flags) : (s.setFlags f).ir = s.ir := rfl
@[simp] theorem setFlags_mar (f : Flags) : (s.setFlags f).mar = s.mar := rfl
@[simp] theorem setFlags_mdr (f : Flags) : (s.setFlags f).mdr = s.mdr := rfl
@[simp] theorem setFlags_flags (f : Flags) : (s.setFlags f).flags = f := rfl
@[simp] theorem setFlags_abus (f : Flags) : (s.setFlags f).abus = s.abus := rfl
@[simp] theorem setFlags_dbus (f : Flags) : (s.setFlags f).dbus = s.dbus := rfl
@[simp] theorem setFlags_cbus (f : Flags) : (s.setFlags f).cbus = s.cbus := rfl
@[simp] theorem setFlags_imem (f : Flags) : (s.setFlags f).imem = s.imem := rfl
@[simp] theorem setFlags_plen (f : Flags) : (s.setFlags f).plen = s.plen := rfl

/-! ### setPc -/

@[simp] theorem setPc_regs (t : Line) : (s.setPc t).regs = s.regs := rfl
@[simp] theorem setPc_mem (t : Line) : (s.setPc t).mem = s.mem := rfl
@[simp] theorem setPc_pc (t : Line) : (s.setPc t).pc = t := rfl
@[simp] theorem setPc_ir (t : Line) : (s.setPc t).ir = s.ir := rfl
@[simp] theorem setPc_mar (t : Line) : (s.setPc t).mar = s.mar := rfl
@[simp] theorem setPc_mdr (t : Line) : (s.setPc t).mdr = s.mdr := rfl
@[simp] theorem setPc_flags (t : Line) : (s.setPc t).flags = s.flags := rfl
@[simp] theorem setPc_abus (t : Line) : (s.setPc t).abus = s.abus := rfl
@[simp] theorem setPc_dbus (t : Line) : (s.setPc t).dbus = s.dbus := rfl
@[simp] theorem setPc_cbus (t : Line) : (s.setPc t).cbus = s.cbus := rfl
@[simp] theorem setPc_imem (t : Line) : (s.setPc t).imem = s.imem := rfl
@[simp] theorem setPc_plen (t : Line) : (s.setPc t).plen = s.plen := rfl

/-! ### advance -/

@[simp] theorem advance_regs : (s.advance).regs = s.regs := rfl
@[simp] theorem advance_mem : (s.advance).mem = s.mem := rfl
@[simp] theorem advance_pc : (s.advance).pc = s.pc + 1 := rfl
@[simp] theorem advance_ir : (s.advance).ir = s.ir := rfl
@[simp] theorem advance_mar : (s.advance).mar = s.mar := rfl
@[simp] theorem advance_mdr : (s.advance).mdr = s.mdr := rfl
@[simp] theorem advance_flags : (s.advance).flags = s.flags := rfl
@[simp] theorem advance_abus : (s.advance).abus = s.abus := rfl
@[simp] theorem advance_dbus : (s.advance).dbus = s.dbus := rfl
@[simp] theorem advance_cbus : (s.advance).cbus = s.cbus := rfl
@[simp] theorem advance_imem : (s.advance).imem = s.imem := rfl
@[simp] theorem advance_plen : (s.advance).plen = s.plen := rfl

/-! ### branch -/

@[simp] theorem branch_regs (taken : Bool) (line : Line) : (s.branch taken line).regs = s.regs := rfl
@[simp] theorem branch_mem (taken : Bool) (line : Line) : (s.branch taken line).mem = s.mem := rfl
@[simp] theorem branch_pc (taken : Bool) (line : Line) : (s.branch taken line).pc = if taken then line else s.pc + 1 := rfl
@[simp] theorem branch_ir (taken : Bool) (line : Line) : (s.branch taken line).ir = s.ir := rfl
@[simp] theorem branch_mar (taken : Bool) (line : Line) : (s.branch taken line).mar = s.mar := rfl
@[simp] theorem branch_mdr (taken : Bool) (line : Line) : (s.branch taken line).mdr = s.mdr := rfl
@[simp] theorem branch_flags (taken : Bool) (line : Line) : (s.branch taken line).flags = s.flags := rfl
@[simp] theorem branch_abus (taken : Bool) (line : Line) : (s.branch taken line).abus = s.abus := rfl
@[simp] theorem branch_dbus (taken : Bool) (line : Line) : (s.branch taken line).dbus = s.dbus := rfl
@[simp] theorem branch_cbus (taken : Bool) (line : Line) : (s.branch taken line).cbus = s.cbus := rfl
@[simp] theorem branch_imem (taken : Bool) (line : Line) : (s.branch taken line).imem = s.imem := rfl
@[simp] theorem branch_plen (taken : Bool) (line : Line) : (s.branch taken line).plen = s.plen := rfl

/-! ### latchFetch -/

@[simp] theorem latchFetch_regs (w : Word) : (s.latchFetch w).regs = s.regs := rfl
@[simp] theorem latchFetch_mem (w : Word) : (s.latchFetch w).mem = s.mem := rfl
@[simp] theorem latchFetch_pc (w : Word) : (s.latchFetch w).pc = s.pc := rfl
@[simp] theorem latchFetch_ir (w : Word) : (s.latchFetch w).ir = w := rfl
@[simp] theorem latchFetch_mar (w : Word) : (s.latchFetch w).mar = s.mar := rfl
@[simp] theorem latchFetch_mdr (w : Word) : (s.latchFetch w).mdr = s.mdr := rfl
@[simp] theorem latchFetch_flags (w : Word) : (s.latchFetch w).flags = s.flags := rfl
@[simp] theorem latchFetch_abus (w : Word) : (s.latchFetch w).abus = s.pc := rfl
@[simp] theorem latchFetch_dbus (w : Word) : (s.latchFetch w).dbus = s.dbus := rfl
@[simp] theorem latchFetch_cbus (w : Word) : (s.latchFetch w).cbus = .fetch := rfl
@[simp] theorem latchFetch_imem (w : Word) : (s.latchFetch w).imem = s.imem := rfl
@[simp] theorem latchFetch_plen (w : Word) : (s.latchFetch w).plen = s.plen := rfl

/-! ### driveImm -/

@[simp] theorem driveImm_regs (v : Byte) : (s.driveImm v).regs = s.regs := rfl
@[simp] theorem driveImm_mem (v : Byte) : (s.driveImm v).mem = s.mem := rfl
@[simp] theorem driveImm_pc (v : Byte) : (s.driveImm v).pc = s.pc := rfl
@[simp] theorem driveImm_ir (v : Byte) : (s.driveImm v).ir = s.ir := rfl
@[simp] theorem driveImm_mar (v : Byte) : (s.driveImm v).mar = s.mar := rfl
@[simp] theorem driveImm_mdr (v : Byte) : (s.driveImm v).mdr = s.mdr := rfl
@[simp] theorem driveImm_flags (v : Byte) : (s.driveImm v).flags = s.flags := rfl
@[simp] theorem driveImm_abus (v : Byte) : (s.driveImm v).abus = s.abus := rfl
@[simp] theorem driveImm_dbus (v : Byte) : (s.driveImm v).dbus = v := rfl
@[simp] theorem driveImm_cbus (v : Byte) : (s.driveImm v).cbus = .imm := rfl
@[simp] theorem driveImm_imem (v : Byte) : (s.driveImm v).imem = s.imem := rfl
@[simp] theorem driveImm_plen (v : Byte) : (s.driveImm v).plen = s.plen := rfl

/-! ### storeByte -/

@[simp] theorem storeByte_regs (a : Addr) (v : Byte) : (s.storeByte a v).regs = s.regs := rfl
@[simp] theorem storeByte_mem (a : Addr) (v : Byte) : (s.storeByte a v).mem = s.mem.write a v := rfl
@[simp] theorem storeByte_pc (a : Addr) (v : Byte) : (s.storeByte a v).pc = s.pc := rfl
@[simp] theorem storeByte_ir (a : Addr) (v : Byte) : (s.storeByte a v).ir = s.ir := rfl
@[simp] theorem storeByte_mar (a : Addr) (v : Byte) : (s.storeByte a v).mar = a.setWidth 8 := rfl
@[simp] theorem storeByte_mdr (a : Addr) (v : Byte) : (s.storeByte a v).mdr = v := rfl
@[simp] theorem storeByte_flags (a : Addr) (v : Byte) : (s.storeByte a v).flags = s.flags := rfl
@[simp] theorem storeByte_abus (a : Addr) (v : Byte) : (s.storeByte a v).abus = a.setWidth 8 := rfl
@[simp] theorem storeByte_dbus (a : Addr) (v : Byte) : (s.storeByte a v).dbus = v := rfl
@[simp] theorem storeByte_cbus (a : Addr) (v : Byte) : (s.storeByte a v).cbus = .memwr := rfl
@[simp] theorem storeByte_imem (a : Addr) (v : Byte) : (s.storeByte a v).imem = s.imem := rfl
@[simp] theorem storeByte_plen (a : Addr) (v : Byte) : (s.storeByte a v).plen = s.plen := rfl

/-! ### commitAlu -/

@[simp] theorem commitAlu_regs (rd : Reg) (out : AluOut) : (s.commitAlu rd out).regs = s.regs.set rd.toNat out.y rd.isLt := rfl
@[simp] theorem commitAlu_mem (rd : Reg) (out : AluOut) : (s.commitAlu rd out).mem = s.mem := rfl
@[simp] theorem commitAlu_pc (rd : Reg) (out : AluOut) : (s.commitAlu rd out).pc = s.pc + 1 := rfl
@[simp] theorem commitAlu_ir (rd : Reg) (out : AluOut) : (s.commitAlu rd out).ir = s.ir := rfl
@[simp] theorem commitAlu_mar (rd : Reg) (out : AluOut) : (s.commitAlu rd out).mar = s.mar := rfl
@[simp] theorem commitAlu_mdr (rd : Reg) (out : AluOut) : (s.commitAlu rd out).mdr = s.mdr := rfl
@[simp] theorem commitAlu_flags (rd : Reg) (out : AluOut) : (s.commitAlu rd out).flags = out.flags := rfl
@[simp] theorem commitAlu_abus (rd : Reg) (out : AluOut) : (s.commitAlu rd out).abus = s.abus := rfl
@[simp] theorem commitAlu_dbus (rd : Reg) (out : AluOut) : (s.commitAlu rd out).dbus = s.dbus := rfl
@[simp] theorem commitAlu_cbus (rd : Reg) (out : AluOut) : (s.commitAlu rd out).cbus = s.cbus := rfl
@[simp] theorem commitAlu_imem (rd : Reg) (out : AluOut) : (s.commitAlu rd out).imem = s.imem := rfl
@[simp] theorem commitAlu_plen (rd : Reg) (out : AluOut) : (s.commitAlu rd out).plen = s.plen := rfl

/-! ### hostReset -/

@[simp] theorem hostReset_regs : (s.hostReset).regs = ArchState.reset.regs := rfl
@[simp] theorem hostReset_mem : (s.hostReset).mem = ArchState.reset.mem := rfl
@[simp] theorem hostReset_pc : (s.hostReset).pc = ArchState.reset.pc := rfl
@[simp] theorem hostReset_ir : (s.hostReset).ir = ArchState.reset.ir := rfl
@[simp] theorem hostReset_mar : (s.hostReset).mar = ArchState.reset.mar := rfl
@[simp] theorem hostReset_mdr : (s.hostReset).mdr = ArchState.reset.mdr := rfl
@[simp] theorem hostReset_flags : (s.hostReset).flags = ArchState.reset.flags := rfl
@[simp] theorem hostReset_abus : (s.hostReset).abus = ArchState.reset.abus := rfl
@[simp] theorem hostReset_dbus : (s.hostReset).dbus = ArchState.reset.dbus := rfl
@[simp] theorem hostReset_cbus : (s.hostReset).cbus = ArchState.reset.cbus := rfl
@[simp] theorem hostReset_imem : (s.hostReset).imem = s.imem := rfl
@[simp] theorem hostReset_plen : (s.hostReset).plen = s.plen := rfl

/-! ### hostWrite -/

@[simp] theorem hostWrite_regs (a : ArchState) : (s.hostWrite a).regs = a.regs := rfl
@[simp] theorem hostWrite_mem (a : ArchState) : (s.hostWrite a).mem = a.mem := rfl
@[simp] theorem hostWrite_pc (a : ArchState) : (s.hostWrite a).pc = a.pc := rfl
@[simp] theorem hostWrite_ir (a : ArchState) : (s.hostWrite a).ir = a.ir := rfl
@[simp] theorem hostWrite_mar (a : ArchState) : (s.hostWrite a).mar = a.mar := rfl
@[simp] theorem hostWrite_mdr (a : ArchState) : (s.hostWrite a).mdr = a.mdr := rfl
@[simp] theorem hostWrite_flags (a : ArchState) : (s.hostWrite a).flags = a.flags := rfl
@[simp] theorem hostWrite_abus (a : ArchState) : (s.hostWrite a).abus = a.abus := rfl
@[simp] theorem hostWrite_dbus (a : ArchState) : (s.hostWrite a).dbus = a.dbus := rfl
@[simp] theorem hostWrite_cbus (a : ArchState) : (s.hostWrite a).cbus = a.cbus := rfl
@[simp] theorem hostWrite_imem (a : ArchState) : (s.hostWrite a).imem = s.imem := rfl
@[simp] theorem hostWrite_plen (a : ArchState) : (s.hostWrite a).plen = s.plen := rfl

end Sys2Proof.Machine
end

