-- ==== Sys2Proof/Laws/Step.lean ====
section
/-! SUPPORT. What each shared operation and the step can do, said once. -/

namespace Sys2Proof.Machine

/-- An ExecutionError is the fault that carries its cause. -/
@[simp] theorem raiseExecutionError_eq (c : Cause) : raiseExecutionError c = .fault (.executionError c) := rfl

/-- Every meaning answers a next state: nothing but decode raises an error. -/
theorem exec_answers_next (i : Instr) (s : State) : ∃ t, exec i s = .next t := by
  cases i <;> exact ⟨_, rfl⟩

/-- Everything a step that answers a next state can have done. -/
theorem step_next_cases {s t : State} (h : step s = .next t) :
    (s.halted = true ∧ t = s) ∨
    (s.halted = false ∧ ∃ i, decode s.fetchWord s.plen = .ok i ∧ exec i (s.latchFetch s.fetchWord) = .next t) := by
  unfold step at h
  by_cases hh : s.halted = true
  · simp only [hh, if_true, Host.Outcome.next.injEq] at h
    exact .inl ⟨hh, h.symm⟩
  · simp only [Bool.not_eq_true] at hh
    simp only [hh, Bool.false_eq_true, if_false] at h
    cases hd : decode s.fetchWord s.plen with
    | error c => simp [hd] at h
    | ok i => rw [hd] at h; exact .inr ⟨hh, i, rfl, h⟩

/-- Everything a step that faults can have done: the word is illegal, with the fault's cause. -/
theorem step_fault_cases {s : State} {f : Fault} (h : step s = .fault f) :
    s.halted = false ∧ ∃ c, decode s.fetchWord s.plen = .error c ∧ f = .executionError c := by
  unfold step at h
  by_cases hh : s.halted = true
  · simp [hh] at h
  · simp only [Bool.not_eq_true] at hh
    simp only [hh, Bool.false_eq_true, if_false] at h
    cases hd : decode s.fetchWord s.plen with
    | error c =>
      rw [hd] at h
      simp only [raiseExecutionError_eq, Host.Outcome.fault.injEq] at h
      exact ⟨hh, c, rfl, h.symm⟩
    | ok i =>
      obtain ⟨t, ht⟩ := exec_answers_next i (s.latchFetch s.fetchWord)
      rw [hd] at h
      simp only at h
      rw [ht] at h
      cases h

/-- No step is refused. -/
theorem step_not_refused (s : State) (r : Refusal) : step s ≠ .refused r := by
  intro h
  unfold step at h
  by_cases hh : s.halted = true
  · simp [hh] at h
  · simp only [Bool.not_eq_true] at hh
    simp only [hh, Bool.false_eq_true, if_false] at h
    cases hd : decode s.fetchWord s.plen with
    | error c => simp [hd] at h
    | ok i =>
      obtain ⟨t, ht⟩ := exec_answers_next i (s.latchFetch s.fetchWord)
      rw [hd] at h
      simp only at h
      rw [ht] at h
      cases h

/-- A word decodes exactly where it passes the word checks and its jump target, if any, is a line of the program. -/
theorem decode_ok_inv {w : Word} {plen : Byte} {i : Instr} (h : decode w plen = .ok i) :
    decodeWord w = .ok i ∧ i.wellFormedFor plen = true := by
  unfold decode at h
  cases hw : decodeWord w with
  | error c => simp [hw] at h
  | ok j =>
    rw [hw] at h
    by_cases hj : j.wellFormedFor plen = true
    · simp only [hj, if_true, Except.ok.injEq] at h
      subst h
      exact ⟨rfl, hj⟩
    · simp [hj] at h

/-- What `loadProgram` can do: at most MAX_PROG_LEN words, S untouched. -/
theorem loadProgram_cases {s t : State} {words : List Word} (h : s.loadProgram words = some t) :
    words.length ≤ Config.maxProgLen ∧
    t = { s with imem := s.imem.writeAll 0 words, plen := BitVec.ofNat 8 words.length } := by
  unfold State.loadProgram at h
  by_cases hn : words.length ≤ Config.maxProgLen
  · simp only [hn, if_true, Option.some.injEq] at h
    exact ⟨hn, h.symm⟩
  · simp [hn] at h

end Sys2Proof.Machine
end

