-- ==== Sys2Proof/Laws/Run.lean ====
section
/-! SUPPORT. What a run of several steps does, one step at a time; what `after` is in each outcome of a step. -/

namespace Sys2Proof.Machine

/-- A run of any machine goes on from the next state of its first step. -/
theorem run_of_next (M : Host.Core) (n : Nat) {s t : M.State} (h : M.step s = .next t) : M.run (n + 1) s = M.run n t := by
  rw [Host.Core.run.eq_2, h]

/-- A run of any machine ends at a fault. -/
theorem run_of_fault (M : Host.Core) (n : Nat) {s : M.State} {f : M.Fault} (h : M.step s = .fault f) :
    M.run (n + 1) s = .fault f := by
  rw [Host.Core.run.eq_2, h]

theorem core_run_zero (s : State) : Sys2Proof.core.run 0 s = .next s := rfl

theorem core_run_of_next (n : Nat) {s t : State} (h : step s = .next t) :
    Sys2Proof.core.run (n + 1) s = Sys2Proof.core.run n t :=
  run_of_next Sys2Proof.core n h

theorem core_run_of_fault (n : Nat) {s : State} {f : Fault} (h : step s = .fault f) :
    Sys2Proof.core.run (n + 1) s = .fault f :=
  run_of_fault Sys2Proof.core n h

/-- Induction over a run, packaged once: what every step from a state that has it keeps, a run keeps. -/
theorem core_run_keeps (P : State → Prop) (hstep : ∀ s t, P s → step s = .next t → P t) :
    ∀ (n : Nat) (s t : State), P s → Sys2Proof.core.run n s = .next t → P t := by
  intro n
  induction n with
  | zero =>
    intro s t hs h
    rw [core_run_zero] at h
    cases h
    exact hs
  | succ n ih =>
    intro s t hs h
    cases hst : step s with
    | next u => rw [core_run_of_next n hst] at h; exact ih u t (hstep s u hs hst) h
    | fault f => rw [core_run_of_fault n hst] at h; cases h
    | refused r => exact absurd hst (step_not_refused s r)

theorem after_of_next {s t : State} (h : step s = .next t) : s.after = t := by simp [State.after, h]

theorem after_of_fault {s : State} {f : Fault} (h : step s = .fault f) : s.after = s := by simp [State.after, h]

end Sys2Proof.Machine
end

