-- ==== Sys2Proof/Tests/Slice0.lean ====
section
/-! SUPPORT. Tests: ill-formed terms refused, words of every row decoded, one step of every instruction, the host's ports, the
assembler, and a witness for the hypotheses of every statement that has them. Expected values are from spec/95_test_vectors.md
and the worked examples of the rules named. -/

namespace Sys2Proof.Tests

open Sys2Proof Sys2Proof.Machine

/-! ### Ill-formed terms are refused (R101, R116, R119) -/

theorem test_wf_refuses_target_at_plen : (Instr.jz 4).wellFormedFor 4 = false := by decide
theorem test_wf_accepts_last_line : (Instr.jz 3).wellFormedFor 4 = true := by decide
theorem test_wf_refuses_line_255 : (Instr.jmp 255).wellFormed = false := by decide
theorem test_wf_accepts_line_254 : (Instr.jmp 254).wellFormed = true := by decide
theorem test_program_wf_refuses_missing_line : programWellFormed [.nop, .jnz 2] = false := by decide
theorem test_program_wf_refuses_256_lines : ∀ p : List Instr, p.length = 256 → programWellFormed p = false := by
  intro p hp
  simp [programWellFormed, Config.maxProgLen, hp]

/-! ### Words written out from the patterns of R92 (95_test_vectors.md 2.1) -/

theorem test_decode_load : decodeTableWord 16 0b0000111011111111 = some (.load 7 255) := by decide
theorem test_decode_store : decodeTableWord 16 0b0001111000111111 = some (.store 7 63) := by decide
theorem test_decode_mov : decodeTableWord 16 0b0010100001000000 = some (.mov 4 1) := by decide
theorem test_decode_add : decodeTableWord 16 0b0011010000001000 = some (.add 2 0 1) := by decide
theorem test_decode_sub : decodeTableWord 16 0b0100011001000000 = some (.sub 3 1 0) := by decide
theorem test_decode_mul : decodeTableWord 16 0b0101010000001000 = some (.mul 2 0 1) := by decide
theorem test_decode_inc : decodeTableWord 16 0b0110110000000000 = some (.inc 6) := by decide
theorem test_decode_dec : decodeTableWord 16 0b0111101000000000 = some (.dec 5) := by decide
theorem test_decode_cmp : decodeTableWord 16 0b1000110111000000 = some (.cmp 6 7) := by decide
theorem test_decode_jmp : decode 0b1001000000000011 4 = .ok (.jmp 3) := by decide
theorem test_decode_jz : decode 0b1010000000000000 1 = .ok (.jz 0) := by decide
theorem test_decode_jnz : decode 0b1011000000000010 5 = .ok (.jnz 2) := by decide
theorem test_decode_jc : decode 0b1100000000001001 11 = .ok (.jc 9) := by decide
theorem test_decode_jn : decode 0b1101000011111110 255 = .ok (.jn 254) := by decide
theorem test_decode_nop : decodeTableWord 16 0b1110000000000000 = some .nop := by decide

theorem test_decode_reserved_bits :
    [0x01FF#16, 0x1040, 0x2841, 0x3409, 0x6C01, 0x8DC8, 0x9100, 0xE001].map (fun w => decode w 4) =
      List.replicate 8 (.error .reservedBits) := by decide
theorem test_decode_illegal_opcode : [0xF000#16, 0xFFFF].map (fun w => decode w 4) =
    List.replicate 2 (.error .illegalOpcode) := by decide
theorem test_decode_bad_target : decode 0x9004 4 = .error .badTarget ∧ decode 0xC0FF 255 = .error .badTarget := by decide
theorem test_decode_priority : decode 0x9F09 5 = .error .reservedBits := by decide

/-- R104: the words of the scenario program. -/
theorem test_encode_scenario : [Instr.load 0 10, .load 1 20, .add 2 0 1, .store 2 5].map encode =
    [0x000A, 0x0214, 0x3408, 0x1405] := by decide

/-! ### One step of each instruction (95_test_vectors.md 2.2 to 2.9) -/

/-- PLEN 8, pc 4, the word at line 4, DBUS 7, and the registers given. -/
def at4 (w : Word) (regs : Vector Byte 8) : State :=
  { State.reset with
    pc := 4
    plen := 8
    imem := ProgramStore.write [] 4 w
    regs := regs
    dbus := 7 }

/-- A register file with the first three registers given. -/
def regs3 (a b c : Byte) : Vector Byte 8 := #v[a, b, c, 0, 0, 0, 0, 0]

/-- What a step shows of its next state, if it answers one. -/
def shows {α : Type} (o : Host.Outcome State Fault Refusal) (look : State → α) : Option α :=
  match o with
  | .next t => some (look t)
  | .fault _ => none
  | .refused _ => none

/-- Flags in the order of the spec's tables: Z, N, C, V. -/
def znCV (s : State) : Bool × Bool × Bool × Bool := (s.flags.z, s.flags.n, s.flags.c, s.flags.v)

theorem test_load_bus_and_register :
    shows (step (at4 0x0EFF (regs3 0 0 0))) (fun t => (t.dbus, t.abus, t.cbus)) = some (255, 4, .imm) ∧
    shows (step (at4 0x0EFF (regs3 0 0 0))) (fun t => (t.readReg 7, t.ir, t.pc)) = some (255, 0x0EFF, 5) ∧
    shows (step (at4 0x0EFF (regs3 0 0 0))) znCV = some (false, false, false, false) := by decide
theorem test_store_63 :
    shows (step (at4 0x143F (regs3 0 0 200))) (fun t => (t.mem, t.mar, t.mdr)) = some ([(63, 200)], 63, 200) ∧
    shows (step (at4 0x143F (regs3 0 0 200))) (fun t => (t.abus, t.dbus, t.cbus)) = some (63, 200, .memwr) := by decide
theorem test_store_zero_unlists_the_cell :
    shows (step { at4 0x1000 (regs3 0 0 0) with mem := [(0, 9)] }) (fun t => (t.mem, t.flags.z)) = some ([], false) := by
  decide
theorem test_mov : shows (step (at4 0x2840 (regs3 0 20 0)))
    (fun t => (t.readReg 4, t.readReg 1, t.dbus, t.abus, t.cbus)) = some (20, 20, 7, 4, .fetch) := by decide
theorem test_mov_to_itself : shows (step (at4 0x26C0 #v[0, 0, 0, 9, 0, 0, 0, 0]))
    (fun t => (t.readReg 3, t.ir, t.pc)) = some (9, 0x26C0, 5) := by decide
theorem test_add_both_overflows : shows (step (at4 0x3408 (regs3 128 128 0))) (fun t => (t.readReg 2, znCV t)) =
    some (0, true, false, true, true) := by decide
theorem test_add_doubles_its_source : shows (step (at4 0x3248 (regs3 0 100 0))) (fun t => (t.readReg 1, znCV t)) =
    some (200, false, true, false, true) := by decide
theorem test_sub_order_of_operands : shows (step (at4 0x4608 (regs3 10 20 0))) (fun t => (t.readReg 3, znCV t)) =
    some (246, false, true, true, false) := by decide
theorem test_sub_signed_overflow : shows (step (at4 0x4608 (regs3 127 255 0))) (fun t => (t.readReg 3, znCV t)) =
    some (128, false, true, true, true) := by decide
theorem test_mul_256 : shows (step (at4 0x5408 (regs3 16 16 0))) (fun t => (t.readReg 2, znCV t)) =
    some (0, true, false, true, true) := by decide
theorem test_mul_255 : shows (step (at4 0x5408 (regs3 15 17 0))) (fun t => (t.readReg 2, znCV t)) =
    some (255, false, true, false, false) := by decide
theorem test_inc_255 : shows (step (at4 0x6000 (regs3 255 0 0))) (fun t => (t.readReg 0, znCV t)) =
    some (0, true, false, true, false) := by decide
theorem test_inc_127 : shows (step (at4 0x6000 (regs3 127 0 0))) (fun t => (t.readReg 0, znCV t)) =
    some (128, false, true, false, true) := by decide
theorem test_dec_0 : shows (step (at4 0x7000 (regs3 0 0 0))) (fun t => (t.readReg 0, znCV t)) =
    some (255, false, true, true, false) := by decide
theorem test_dec_128 : shows (step (at4 0x7000 (regs3 128 0 0))) (fun t => (t.readReg 0, znCV t)) =
    some (127, false, false, false, true) := by decide
theorem test_cmp_0_255 : shows (step (at4 0x8040 (regs3 0 255 0))) (fun t => (t.regs, znCV t)) =
    some (regs3 0 255 0, false, false, true, false) := by decide
theorem test_cmp_128_1 : shows (step (at4 0x8040 (regs3 128 1 0))) (fun t => (t.mar, t.mdr, znCV t)) =
    some (0, 0, false, false, false, true) := by decide
theorem test_jmp_to_itself : shows (step (at4 0x9004 (regs3 0 0 0))) (fun t => (t.pc, t.abus, t.ir, t.dbus)) =
    some (4, 4, 0x9004, 7) := by decide
theorem test_jz : shows (step ((at4 0xA007 (regs3 0 0 0)).setFlags ⟨true, false, false, false⟩)) (·.pc) = some 7 ∧
    shows (step ((at4 0xA007 (regs3 0 0 0)).setFlags ⟨false, true, true, true⟩)) (·.pc) = some 5 := by decide
theorem test_jnz : shows (step ((at4 0xB001 (regs3 0 0 0)).setFlags ⟨false, true, true, true⟩)) (·.pc) = some 1 ∧
    shows (step ((at4 0xB001 (regs3 0 0 0)).setFlags ⟨true, false, false, false⟩)) (·.pc) = some 5 := by decide
theorem test_jc : shows (step ((at4 0xC002 (regs3 0 0 0)).setFlags ⟨false, false, true, false⟩)) (·.pc) = some 2 ∧
    shows (step ((at4 0xC002 (regs3 0 0 0)).setFlags ⟨true, true, false, true⟩)) (·.pc) = some 5 := by decide
theorem test_jn : shows (step ((at4 0xD006 (regs3 0 0 0)).setFlags ⟨false, true, false, false⟩)) (·.pc) = some 6 ∧
    shows (step ((at4 0xD006 (regs3 0 0 0)).setFlags ⟨true, false, true, true⟩)) (·.pc) = some 5 := by decide
theorem test_nop :
    shows (step (at4 0xE000 (regs3 1 2 3))) (fun t => (t.abus, t.dbus, t.cbus)) = some (4, 7, .fetch) ∧
    shows (step (at4 0xE000 (regs3 1 2 3))) (fun t => (t.pc, t.ir, t.regs)) = some (5, 0xE000, regs3 1 2 3) := by decide

/-! ### Halt, error and the host's ports (95_test_vectors.md 2.10) -/

theorem test_reset_is_halted : State.reset.result = .halted := by decide
theorem test_halted_code : State.reset.result.code = 0b0100 := by decide
theorem test_bad_target_writes_nothing :
    (at4 0x9008 (regs3 0 0 0)).stepRequest = (at4 0x9008 (regs3 0 0 0), .error .badTarget) := by decide
theorem test_illegal_opcode_code : (at4 0xF000 (regs3 0 0 0)).result.code = 0b1001 := by decide
theorem test_host_write_past_plen_is_halted : ({ at4 0xE000 (regs3 0 0 0) with pc := 9 } : State).result = .halted := by
  decide
theorem test_with_fetch_word : shows (step (State.reset.withFetchWord 16 0x0EFF)) (fun t => (t.readReg 7, t.pc)) =
    some (255, 1) := by decide
theorem test_with_fetch_word_at_255 : shows (step (State.withFetchWord { State.reset with pc := 255 } 16 0xE000)) (·.pc) =
    some 1 := by decide
theorem test_flags_pack : Flags.pack ⟨true, false, true, false⟩ = 0b1001 := by decide
theorem test_program_image : programImage [0x000A, 0x3408] = [0x00, 0x0A, 0x34, 0x08] := by decide
theorem test_image_of_odd_length_is_refused : imageWords [0x00, 0x0A, 0x34] = none := by decide
theorem test_load_of_256_words_is_refused :
    ∀ words : List Word, words.length = 256 → State.reset.loadProgram words = none := by
  intro words h
  simp [State.loadProgram, Config.maxProgLen, h]

/-- A load of a shorter program leaves the pc above PLEN, which R131 treats as halted (log entry 9). -/
theorem test_shorter_load_halts :
    ((State.loadProgram { State.reset with pc := 10 } [0xE000]).map (fun t => (t.pc, t.plen, t.result))) =
      some (10, 1, .halted) := by decide

/-! ### Assembler (30_encoding.md section 5) -/

theorem test_assemble_line : parseLine 6 "  jnz  2 ".toList = .ok (.jnz 2) := by decide
theorem test_assemble_comment_and_blank_lines :
    assemble "; title\n\nLoad R0, 007 # seven\nADD R0,R1\n".toList = .ok [.load 0 7, .add 0 0 1] := by decide
theorem test_assemble_register_9 : assemble "ADD R9, R0, R1".toList = .error [{ line := 0, kind := .operandRange }] := by
  decide
theorem test_assemble_all_errors :
    assemble "FOO R1\nADD R0,,R1\nMOV R1\nJMP 4\nSTORE r1, 3\nLOAD R1, 256".toList =
      .error [⟨0, .unknownOpcode⟩, ⟨1, .operandRange⟩, ⟨2, .wrongOperandCount⟩, ⟨4, .operandRange⟩,
        ⟨5, .operandRange⟩] := by decide
theorem test_assemble_target_past_the_end : assemble "JMP 1".toList = .error [⟨0, .targetBounds⟩] := by decide
theorem test_disassemble : disassemble (.add 2 0 1) = "ADD R2, R0, R1".toList ∧
    disassemble (.jnz 2) = "JNZ 2".toList := by decide
theorem test_bad_source_loads_nothing :
    (at4 0xE000 (regs3 0 0 0)).loadSource "ADD R9, R0, R1".toList = at4 0xE000 (regs3 0 0 0) := by decide

/-! ### Witnesses for the hypotheses of the statements -/

/-- A state that steps: ADD R2, R0, R1 at line 4 of 8. -/
def addState : State := at4 0x3408 (regs3 10 20 0)

/-- A state whose word is illegal. -/
def badState : State := at4 0xF000 (regs3 0 0 0)

theorem witness_EncodeThenDecode : (Instr.jmp 3).wellFormedFor 4 = true ∧ (Instr.add 7 7 7).wellFormedFor 0 = true := by
  decide
theorem witness_EveryWordIsOneInstructionOrIllegal : decode 0x9003 4 = .ok (.jmp 3) ∧ decode 0x9004 4 = .error .badTarget := by
  decide
theorem witness_IllegalWordsRaiseTheirCause :
    badState.pc.toNat < badState.plen.toNat ∧ decodeWord badState.fetchWord = .error .illegalOpcode ∧
    (at4 0xE001 (regs3 0 0 0)).pc.toNat < 8 ∧
      decodeWord (at4 0xE001 (regs3 0 0 0)).fetchWord = .error .reservedBits := by decide
theorem witness_BadTargetIsIllegalWhetherTakenOrNot :
    Mnemonic.jz.format = .j ∧ Mnemonic.jz.encodedBy 0xA008 = true ∧ line8Of 0xA008 = 8 ∧ (8 : Byte).toNat ≤ (8 : Line).toNat ∧
    (at4 0xA008 (regs3 0 0 0)).fetchWord = 0xA008 ∧
    (at4 0xA008 (regs3 0 0 0)).pc.toNat < (at4 0xA008 (regs3 0 0 0)).plen.toNat ∧
    (at4 0xA008 (regs3 0 0 0)).plen.toNat ≤ (8 : Line).toNat := by decide

/-- One state for each check of R224, at its boundary: pc = PLEN, opcode 15, a reserved bit, line8 = PLEN, line8 = PLEN - 1. -/
theorem witness_ChecksRunInPriorityOrder :
    State.reset.plen.toNat ≤ State.reset.pc.toNat ∧
    badState.pc.toNat < badState.plen.toNat ∧ (opOf badState.fetchWord).toNat = 15 ∧
    opOf (0x9108 : Word) = Mnemonic.jmp.opcode ∧ (0x9108 : Word) &&& Mnemonic.jmp.format.reservedMask ≠ 0 ∧
    (0x9008 : Word) &&& Mnemonic.jmp.format.reservedMask = 0 ∧ (8 : Byte).toNat ≤ (line8Of 0x9008).toNat ∧
    (0x9007 : Word) &&& Mnemonic.jmp.format.reservedMask = 0 ∧ ¬(8 : Byte).toNat ≤ (line8Of 0x9007).toNat := by decide
theorem witness_FieldsAreUnsignedSlices : decode 0x9003 4 = .ok (.jmp 3) ∧ (Instr.jmp 3).target? = some 3 := by decide
theorem witness_StepRunsTheDecodedInstruction :
    addState.pc.toNat < addState.plen.toNat ∧ decode addState.fetchWord addState.plen = .ok (.add 2 0 1) := by decide
theorem witness_HaltedStepChangesNothing :
    State.reset.plen.toNat ≤ State.reset.pc.toNat ∧ State.reset.result = .halted ∧ State.reset.plen = 0 := by decide
theorem witness_IllegalWordStepWritesNothing :
    badState.pc.toNat < badState.plen.toNat ∧ decode badState.fetchWord badState.plen = .error .illegalOpcode ∧
    addState.pc.toNat < addState.plen.toNat ∧ decode addState.fetchWord addState.plen = .ok (.add 2 0 1) := by decide
theorem witness_HaltedAndErrorStatesRepeat :
    State.reset.result = .halted ∧ badState.result = .error .illegalOpcode := by decide
theorem witness_EveryOkStepLatchesItsFetch :
    addState.pc.toNat < addState.plen.toNat ∧ decode addState.fetchWord addState.plen = .ok (.add 2 0 1) ∧
    (Instr.add 2 0 1).mnemonic ≠ .store ∧ (Instr.add 2 0 1).mnemonic ≠ .load ∧
    decode (at4 0x0EFF (regs3 0 0 0)).fetchWord 8 = .ok (.load 7 255) ∧ (Instr.load 7 255).mnemonic ≠ .store := by decide
theorem witness_OkStepsLeaveTheTabledBusValues :
    (at4 0x143F (regs3 0 0 200)).pc.toNat < (at4 0x143F (regs3 0 0 200)).plen.toNat ∧
    decode (at4 0x143F (regs3 0 0 200)).fetchWord (at4 0x143F (regs3 0 0 200)).plen = .ok (.store 2 63) := by decide
theorem witness_NextPcIsTheBranchResolvers :
    (at4 0xB001 (regs3 0 0 0)).pc.toNat < (at4 0xB001 (regs3 0 0 0)).plen.toNat ∧
    decode (at4 0xB001 (regs3 0 0 0)).fetchWord (at4 0xB001 (regs3 0 0 0)).plen = .ok (.jnz 1) ∧
    (Instr.jnz 1).target? = some 1 ∧ branchTaken (.jnz 1) (at4 0xB001 (regs3 0 0 0)).flags = true ∧
    branchTaken (.jz 7) (at4 0xA007 (regs3 0 0 0)).flags = false := by decide
theorem witness_PcNeverPassesTheProgramEnd :
    (∃ t, addState.pc.toNat < addState.plen.toNat ∧ step addState = .next t) ∧ (254 : Line).toNat < (255 : Byte).toNat :=
  ⟨⟨_, by decide, rfl⟩, by decide⟩
theorem witness_FlagsComeFromFlagDefiningInstructions :
    addState.pc.toNat < addState.plen.toNat ∧ decode addState.fetchWord addState.plen = .ok (.add 2 0 1) := by decide

/-- Two states that agree on the registers ADD R2, R0, R1 reads and differ in R2 and the memory. -/
theorem witness_RegistersWrittenAndReadAsListed :
    (∀ r ∈ readRegs (.add 2 0 1), (at4 0x3408 (regs3 10 20 99)).readReg r = addState.readReg r) ∧
    (at4 0x3408 (regs3 10 20 99)).flags = addState.flags ∧ (at4 0x3408 (regs3 10 20 99)).pc = addState.pc ∧
    at4 0x3408 (regs3 10 20 99) ≠ addState ∧ writtenReg (.add 2 0 1) = some 2 ∧ writtenCell (.store 7 63) = some 63 := by
  decide

/-- Flags that differ in everything but the flag JZ reads. -/
theorem witness_FlagsReadAsListed :
    flagRead (.jz 7) ⟨false, true, true, true⟩ = flagRead (.jz 7) (at4 0xA007 (regs3 0 0 0)).flags ∧
    flagDefining (.cmp 0 1) = true ∧ flagDefining (.jz 7) = false := by decide

theorem witness_BusesNeverInfluenceAnythingElse :
    SameButBuses addState { addState with abus := 1, dbus := 2, cbus := .memwr } ∧
    ∃ t, step addState = .next t ∧ addState.result = .ok t.busTrace :=
  ⟨⟨rfl, rfl, rfl, rfl, rfl, rfl, rfl, rfl, rfl⟩, _, rfl, rfl⟩
theorem witness_UnreadStateNeverInfluencesAnyRun :
    ObservableSame addState
      { addState with
        mem := [(5, 1)]
        ir := 0xFFFF
        mar := 3
        mdr := 4
        flags := ⟨false, false, false, true⟩
        abus := 5
        dbus := 6
        cbus := .memwr } :=
  ⟨rfl, rfl, rfl, rfl, rfl, rfl, rfl⟩
theorem witness_OnlyStoreWritesMemory : Instr.store 7 63 = .store 7 63 ∧ (Instr.load 7 255).mnemonic ≠ .store := by decide
theorem witness_StoreWritesItsCell : storeAddress 63 = 63 ∧ (0 : Addr) ≠ 63 := by decide

/-- A step, and loads of one and of two words seen from lines 0 and 1. -/
theorem witness_ProgramsNeverModifyThemselves :
    (∃ t, step addState = .next t) ∧
    (∃ t, State.reset.loadProgram [0xE000] = some t ∧ [0xE000#16][t.pc.toNat]? = some 0xE000) ∧
    (∃ t, State.loadProgram { State.reset with pc := 1 } [0xE000, 0x0001] = some t ∧
      [0xE000#16, 0x0001][t.pc.toNat]? = some 0x0001) :=
  ⟨⟨_, rfl⟩, ⟨_, rfl, rfl⟩, ⟨_, rfl, rfl⟩⟩
theorem witness_ConditionalJumpsFollowTheirFlag :
    (at4 0xA007 (regs3 0 0 0)).flags.z = false ∧ ((at4 0xA007 (regs3 0 0 0)).setFlags ⟨true, true, true, true⟩).flags.z = true ∧
    ((at4 0xA007 (regs3 0 0 0)).setFlags ⟨true, true, true, true⟩).flags.c = true ∧
    ((at4 0xA007 (regs3 0 0 0)).setFlags ⟨true, true, true, true⟩).flags.n = true := by decide
theorem witness_NopOnlyAdvances :
    (at4 0xE000 (regs3 0 0 0)).pc.toNat < (at4 0xE000 (regs3 0 0 0)).plen.toNat ∧
    (at4 0xE000 (regs3 0 0 0)).fetchWord = 0xE000 := by decide
theorem witness_LoadProgramWritesImemAndPlen :
    (List.replicate 255 0xE000#16).length ≤ 255 ∧ (List.replicate 255 0xE000#16)[254]? = some 0xE000 ∧
    ([] : List Word).length ≤ 255 :=
  ⟨List.length_replicate.le, List.getElem?_replicate_of_lt (by decide), Nat.zero_le _⟩
theorem witness_LoadProgramWritesImemAndPlen_other_lines :
    ∀ k < [0xE000#16].length, ProgramStore.read [(0, 0xE000), (1, 0x9000)] k =
      ProgramStore.read (ProgramStore.writeAll [] 0 [0xE000]) k := by decide
theorem witness_BootOrderDoesNotMatter :
    (∃ t, addState.boot [0xE000] = some t) ∧ (∃ t, addState.boot [] = some t) := ⟨⟨_, rfl⟩, ⟨_, rfl⟩⟩
theorem witness_RestoreUndoesAStepAndStepRedoesIt : ∃ t, step addState = .next t := ⟨_, rfl⟩

/-- A run that ends at an error, one that ends halted, one that the bound ends, and `JMP 0` at line 0. -/
theorem witness_RunAllIsRepeatedStepping :
    (badState.runAll 3).2.2 = .error .illegalOpcode ∧ (State.reset.runAll 3).2.2 = .halted ∧
    (addState.runAll 1).2.2 = .bound ∧ (addState.runAll 1).1[0]? = some { abus := 4, dbus := 7, cbus := .fetch } ∧
    (State.reset.withFetchWord 16 0x9000).pc = 0 ∧ (State.reset.withFetchWord 16 0x9000).plen ≠ 0 ∧
    (State.reset.withFetchWord 16 0x9000).imem.read 0 = 0x9000 := by decide
theorem witness_EveryStepKeepsTheInvariant : addState.Inv ∧ ∃ t, step addState = .next t :=
  ⟨⟨rfl, rfl, by decide⟩, _, rfl⟩
theorem witness_ResetEstablishesTheInvariant : addState.imem.wf = true := by decide

/-- A program of two lines, both legal. -/
theorem witness_ValidProgramsNeverFault :
    ∃ s : State, s.plen = 2 ∧ State.reset.loadProgram [0xE000, 0x9001] = some s ∧ s.ProgramValid := by
  refine ⟨_, rfl, rfl, fun l hl => ?_⟩
  have h : l = 0 ∨ l = 1 := by
    change l < 2 at hl
    omega
  rcases h with rfl | rfl
  · exact ⟨.nop, by decide⟩
  · exact ⟨.jmp 1, by decide⟩
theorem witness_AssembledProgramsNeverFault : assemble "INC R6\nJNZ 0".toList = .ok [.inc 6, .jnz 0] := by decide
theorem witness_AssembledProgramsAreWellFormed : assemble "JMP 0 ; loop".toList = .ok [.jmp 0] := by decide
theorem witness_DisassembleThenAssemble :
    programWellFormed [.load 7 255, .store 2 63, .jz 2] = true ∧ programWellFormed [] = true := by decide
theorem witness_ValidationListsEveryError :
    (instructionLines "NOP\nMOV R1".toList)[1]? = some "MOV R1".toList ∧
    parseLine 2 "MOV R1".toList = .error [.wrongOperandCount] ∧
    255 ≤ 255 := by decide

/-- A source of 256 instruction lines: n copies of a one-character line. -/
theorem lines_of_copies (n : Nat) :
    instructionLines (List.replicate n ['x', '\n']).flatten = List.replicate n ['x'] := by
  induction n with
  | zero => decide
  | succ n ih => simpa [instructionLines, List.replicate_succ, splitAtEach, stripComment, isSpace] using ih

theorem witness_ValidationListsEveryError_too_long :
    (instructionLines (List.replicate 256 ['x', '\n']).flatten)[255]? = some ['x'] := by
  rw [lines_of_copies]
  exact List.getElem?_replicate_of_lt (by decide)
theorem witness_RegisterTokensAreExact : ∀ r : Reg, ['r', '3'] ≠ ['R', Char.ofNat (48 + r.toNat)] := by decide
theorem witness_OpcodesAreCaseInsensitive :
    "Jnz".toList.map Char.toUpper = Mnemonic.jnz.name ∧
    (∀ m : Mnemonic, "JNZZ".toList.map Char.toUpper ≠ m.name) ∧ opcodeToken " JNZZ 0".toList = "JNZZ".toList :=
  ⟨by decide, fun m => by cases m <;> decide, by decide⟩

/-- The ends of each range, for a program of 255 lines and one of none. -/
theorem witness_ImmediateTokensAreDecimal :
    255 < 256 ∧ 256 ≤ 256 ∧ 63 < 64 ∧ 64 ≤ 64 ∧ 254 < 255 ∧ 255 ≤ 255 ∧ 0 ≤ 0 ∧ OperandKind.line ≠ .reg ∧
    (∃ c ∈ ['0', 'x', '1'], ¬('0' ≤ c ∧ c ≤ '9')) :=
  ⟨by omega, by omega, by omega, by omega, by omega, by omega, by omega, by decide, 'x', by decide, by decide⟩

/-- An address of 64 and a target of 256, each of a line that is otherwise right. -/
theorem witness_ImmediateTokensAreDecimal_line :
    parseMnemonic (opcodeToken "STORE R1, 64".toList) = some .store ∧ [.reg, .addr] ∈ Mnemonic.store.shapes ∧
    [OperandKind.reg, .addr].length = (operandTokens "STORE R1, 64".toList).length ∧
    [OperandKind.reg, .addr][1]? = some .addr ∧ (operandTokens "STORE R1, 64".toList)[1]? = some ['6', '4'] ∧
    operandValue 1 .addr ['6', '4'] = .error .operandRange ∧
    (operandTokens "JMP 256".toList)[0]? = some ['2', '5', '6'] ∧
    operandValue 1 .line ['2', '5', '6'] = .error .targetBounds := by decide
theorem witness_BusTagCodes :
    addState.pc.toNat < addState.plen.toNat ∧ decode addState.fetchWord addState.plen = .ok (.add 2 0 1) ∧
    (Instr.add 2 0 1).mnemonic ≠ .load ∧ (Instr.add 2 0 1).mnemonic ≠ .store ∧ (Instr.load 7 255).mnemonic = .load ∧
    (Instr.store 2 63).mnemonic = .store := by decide
theorem witness_MemoriesWithEqualCellsAreEqual : Memory.wf [(0, 1), (63, 255)] = true ∧ Memory.wf [] = true := by decide
theorem witness_ProgramImageRoundTrip : [0x3408#16][0]? = some 0x3408 := by decide

end Sys2Proof.Tests
end

section
/-! SUPPORT. What an execution and a step do, field by field, in the words of the tables of Safety.lean. -/

namespace Sys2Proof.Machine

variable {i : Instr} {s t u v : State}

/-! ### Registers -/

/-- Two states with the same registers are those in which every register reads the same. -/
theorem regs_eq_iff_readReg : t.regs = s.regs ↔ ∀ r, t.readReg r = s.readReg r := by
  refine ⟨fun h r => readReg_eq_of_regs h r, fun h => Vector.ext fun k hk => ?_⟩
  have hr := h (BitVec.ofNat 3 k)
  simp only [State.readReg, BitVec.toNat_ofNat, Nat.mod_eq_of_lt (show k < 2 ^ 3 from hk)] at hr
  exact hr

@[simp] theorem readReg_hostReset (r : Reg) : s.hostReset.readReg r = 0 := by
  simp only [State.readReg, hostReset_regs, ArchState.reset, Vector.getElem_replicate]

/-! ### What an execution leaves (R31, R40, R138, R139, R161, R201) -/

theorem exec_readReg_written {r : Reg} (h : exec i s = .next t) (hr : writtenReg i = some r) :
    some (t.readReg r) = writtenValue i s := by
  cases i <;> cases hr <;> cases h <;> exact congrArg some (readReg_writeReg_same s r _)

theorem exec_regsSameExcept (h : exec i s = .next t) : RegsSameExcept (writtenReg i) s t := by
  intro q hq
  cases hw : writtenReg i with
  | none => cases i <;> cases hw <;> cases h <;> rfl
  | some r =>
    have hne : r ≠ q := fun e => hq (hw.trans (congrArg some e))
    cases i <;> cases hw <;> cases h <;> exact readReg_writeReg_of_ne s r q _ hne

theorem exec_flags (h : exec i s = .next t) : t.flags = flagsLeft i s := by
  cases i <;> cases h <;> rfl

theorem exec_pc_of_taken (h : exec i s = .next t) (hb : branchTaken i s.flags = true) : i.target? = some t.pc := by
  cases i <;> cases h <;> simp_all [branchTaken, Instr.target?]

theorem exec_pc_of_untaken (h : exec i s = .next t) (hb : branchTaken i s.flags = false) : t.pc = s.pc + 1 := by
  cases i <;> cases h <;> simp_all [branchTaken]

theorem exec_ir (h : exec i s = .next t) : t.ir = s.ir := by
  cases i <;> cases h <;> rfl

theorem exec_programSame (h : exec i s = .next t) : ProgramSame s t := by
  cases i <;> cases h <;> exact ⟨rfl, rfl⟩

/-- The buses after the execution of a fetched instruction are those of the table of R141. -/
theorem exec_latchFetch_busTrace {w : Word} (h : exec i (s.latchFetch w) = .next t) : t.busTrace = busTable i s := by
  cases i <;> cases h <;> rfl

/-- The cell that an instruction stores to and the byte it stores there (R61, R161). -/
def storedByte : Instr → State → Option (Addr × Byte)
  | .store rx addr, s => some (storeAddress addr, s.readReg rx)
  | _, _ => none

theorem storedByte_cell (i : Instr) (s : State) : (storedByte i s).map Prod.fst = writtenCell i := by
  cases i <;> rfl

theorem exec_mem (h : exec i s = .next t) : t.mem = (storedByte i s).elim s.mem (fun e => s.mem.write e.1 e.2) := by
  cases i <;> cases h <;> rfl

theorem exec_mar (h : exec i s = .next t) : t.mar = (storedByte i s).elim s.mar (fun e => e.1.setWidth 8) := by
  cases i <;> cases h <;> rfl

theorem exec_mdr (h : exec i s = .next t) : t.mdr = (storedByte i s).elim s.mdr Prod.snd := by
  cases i <;> cases h <;> rfl

/-- The stored cell reads as the stored byte. -/
theorem exec_read_writtenCell {a : Addr} (h : exec i s = .next t) (ha : writtenCell i = some a) :
    storedByte i s = some (a, t.mem.read a) := by
  rw [exec_mem h]
  rw [← storedByte_cell i s, Option.map_eq_some_iff] at ha
  obtain ⟨⟨b, x⟩, he, rfl⟩ := ha
  simp [he]

theorem exec_mem_wf (h : exec i s = .next t) (hm : s.mem.wf = true) : t.mem.wf = true := by
  rw [exec_mem h]
  cases storedByte i s with
  | none => exact hm
  | some e => exact s.mem.write_wf e.1 e.2 hm

/-! ### What an execution depends on (R31, R40) -/

-- The states agree on every register that the instruction reads.
section Agree

variable (hr : ∀ r ∈ readRegs i, u.readReg r = s.readReg r)
include hr

theorem writtenValue_congr : writtenValue i u = writtenValue i s := by
  cases i <;> simp_all [writtenValue, readRegs]

theorem storedByte_congr : storedByte i u = storedByte i s := by
  cases i <;> simp_all [storedByte, readRegs]

theorem flagsLeft_congr_of_flagDefining (hd : flagDefining i = true) : flagsLeft i u = flagsLeft i s := by
  cases i <;> simp_all [flagsLeft, readRegs, flagDefining]

end Agree

theorem flagsLeft_of_not_flagDefining (hd : flagDefining i = false) : flagsLeft i s = s.flags := by
  cases i <;> simp_all [flagsLeft, flagDefining]

theorem flagsLeft_congr (hr : ∀ r ∈ readRegs i, u.readReg r = s.readReg r) (hf : u.flags = s.flags) :
    flagsLeft i u = flagsLeft i s := by
  cases hd : flagDefining i with
  | true => exact flagsLeft_congr_of_flagDefining hr hd
  | false => rw [flagsLeft_of_not_flagDefining hd, flagsLeft_of_not_flagDefining hd, hf]

theorem branchTaken_congr {f g : Flags} (h : flagRead i g = flagRead i f) : branchTaken i g = branchTaken i f := by
  cases i <;> simp_all [branchTaken, flagRead]

/-- No instruction reads V. -/
theorem flagRead_congr {f g : Flags} (hz : g.z = f.z) (hn : g.n = f.n) (hc : g.c = f.c) :
    flagRead i g = flagRead i f := by
  cases i <;> simp [flagRead, hz, hn, hc]

theorem exec_pc_congr (ht : exec i s = .next t) (hv : exec i u = .next v) (hf : flagRead i u.flags = flagRead i s.flags)
    (hpc : u.pc = s.pc) : v.pc = t.pc := by
  have hbu := branchTaken_congr hf
  cases hb : branchTaken i s.flags with
  | true =>
    have htarget := (exec_pc_of_taken hv (hbu.trans hb)).symm.trans (exec_pc_of_taken ht hb)
    exact Option.some.inj htarget
  | false => rw [exec_pc_of_untaken hv (hbu.trans hb), exec_pc_of_untaken ht hb, hpc]

/-- The written register gets the same value from states that agree on the registers read. -/
theorem exec_readReg_written_congr {r : Reg} (ht : exec i s = .next t) (hv : exec i u = .next v)
    (hr : ∀ q ∈ readRegs i, u.readReg q = s.readReg q) (hw : writtenReg i = some r) : v.readReg r = t.readReg r := by
  refine Option.some.inj ?_
  calc some (v.readReg r) = writtenValue i u := exec_readReg_written hv hw
    _ = writtenValue i s := writtenValue_congr hr
    _ = some (t.readReg r) := (exec_readReg_written ht hw).symm

theorem exec_regs_congr (ht : exec i s = .next t) (hv : exec i u = .next v) (h : u.regs = s.regs) : v.regs = t.regs := by
  have hread := readReg_eq_of_regs h
  refine regs_eq_iff_readReg.2 fun r => ?_
  by_cases hw : writtenReg i = some r
  · exact exec_readReg_written_congr ht hv (fun q _ => hread q) hw
  · rw [exec_regsSameExcept hv r hw, exec_regsSameExcept ht r hw, hread]

/-- A change of the flags before an execution shows after it in the flags and the pc alone (R40). -/
theorem exec_setFlags {f : Flags} (ht : exec i s = .next t) (hu : exec i (s.setFlags f) = .next u) :
    u = (t.setFlags u.flags).setPc u.pc := by
  cases i <;> cases ht <;> cases hu <;> rfl

end Sys2Proof.Machine
end

section
/-! SUPPORT. The branches of the step and of its result, and where the pc goes. -/

namespace Sys2Proof.Machine

variable {i : Instr} {s t : State}

/-! ### The branches of the step and of its result (R131, R134, R136, R141) -/

theorem halted_eq_false_iff : s.halted = false ↔ s.pc.toNat < s.plen.toNat := by
  simp [State.halted, BitVec.lt_def]

theorem step_of_halted (hh : s.halted = true) : step s = .next s := by
  simp [step, hh]

theorem step_of_error {c : Cause} (hh : s.halted = false) (hd : decode s.fetchWord s.plen = .error c) :
    step s = .fault (.executionError c) := by
  simp [step, hh, hd]

theorem step_of_ok (hh : s.halted = false) (hd : decode s.fetchWord s.plen = .ok i) :
    step s = exec i (s.latchFetch s.fetchWord) := by
  simp [step, hh, hd]

theorem result_of_halted (hh : s.halted = true) : s.result = .halted := by
  simp [State.result, hh]

theorem result_of_error {c : Cause} (hh : s.halted = false) (hd : decode s.fetchWord s.plen = .error c) :
    s.result = .error c := by
  simp [State.result, hh, hd]

theorem result_of_ok (hh : s.halted = false) (hd : decode s.fetchWord s.plen = .ok i) :
    s.result = .ok s.after.busTrace := by
  simp [State.result, hh, hd]

theorem result_ne_halted (hh : s.halted = false) : s.result ≠ .halted := by
  cases hd : decode s.fetchWord s.plen with
  | error c => simp [result_of_error hh hd]
  | ok i => simp [result_of_ok hh hd]

/-- The trace of an OK result is the buses of the state after the step. -/
theorem result_ok_trace {trace : BusTrace} (h : step s = .next t) (hok : s.result = .ok trace) : trace = t.busTrace := by
  rcases step_next_cases h with ⟨hh, -⟩ | ⟨hh, i, hd, -⟩
  · rw [result_of_halted hh] at hok; cases hok
  · rw [result_of_ok hh hd, after_of_next h] at hok
    exact (StepResult.ok.inj hok).symm

/-! ### The pc stays in the program (R33, R35, R101) -/

theorem wellFormedFor_iff_of_target {plen : Byte} {line : Line} (ht : i.target? = some line) :
    i.wellFormedFor plen = true ↔ line.toNat < plen.toNat := by
  simp [Instr.wellFormedFor, ht, BitVec.lt_def]

theorem toNat_pc_add_one (h : s.pc.toNat < s.plen.toNat) : (s.pc + 1).toNat = s.pc.toNat + 1 := by
  have hplen := s.plen.isLt
  exact (BitVec.toNat_add s.pc 1).trans (Nat.mod_eq_of_lt (show s.pc.toNat + 1 < 2 ^ 8 by omega))

/-- The pc after a step that runs: `pc + 1`, or the target of a taken jump, below PLEN. -/
theorem step_pc_cases (hpc : s.pc.toNat < s.plen.toNat) (h : step s = .next t) :
    t.pc.toNat = s.pc.toNat + 1 ∨
      ∃ i, decode s.fetchWord s.plen = .ok i ∧ i.target? = some t.pc ∧ branchTaken i s.flags = true ∧
        t.pc.toNat < s.plen.toNat := by
  rcases step_next_cases h with ⟨hh, -⟩ | ⟨-, i, hd, hexec⟩
  · rw [halted_eq_false_iff.2 hpc] at hh; cases hh
  · cases hb : branchTaken i s.flags with
    | true =>
      have htarget := exec_pc_of_taken hexec hb
      exact .inr ⟨i, hd, htarget, hb, (wellFormedFor_iff_of_target htarget).1 (decode_ok_inv hd).2⟩
    | false => exact .inl ((congrArg BitVec.toNat (exec_pc_of_untaken hexec hb)).trans (toNat_pc_add_one hpc))

theorem step_pc_le_plen (hpc : s.pc.toNat < s.plen.toNat) (h : step s = .next t) : t.pc.toNat ≤ s.plen.toNat := by
  rcases step_pc_cases hpc h with hnext | ⟨-, -, -, -, hlt⟩ <;> omega

/-! ### The invariant -/

theorem step_keeps_inv (hs : s.Inv) (h : step s = .next t) : t.Inv := by
  rcases step_next_cases h with ⟨-, rfl⟩ | ⟨hh, i, -, hexec⟩
  · exact hs
  · obtain ⟨himem, hplen⟩ := exec_programSame hexec
    have hpc : t.pc.toNat ≤ s.plen.toNat := step_pc_le_plen (halted_eq_false_iff.1 hh) h
    exact {
      mem := exec_mem_wf hexec hs.mem
      imem := himem ▸ hs.imem
      pc := hplen ▸ hpc }

theorem hostReset_inv (h : s.imem.wf = true) : s.hostReset.Inv where
  mem := rfl
  imem := h
  pc := Nat.zero_le _

end Sys2Proof.Machine
end

section
/-! SUPPORT. Two states that run side by side: what a relation between them must keep, and the two relations of R40 and R46. -/

namespace Sys2Proof.Machine

variable {i : Instr} {s t u v : State}

/-- States with the same pc and program fetch and decode alike; so a relation between them that the execution of every
fetched instruction keeps is kept by the step. -/
theorem step_agrees {related : State → State → Prop} (h : related s u) (hpc : u.pc = s.pc) (hprog : ProgramSame s u)
    (hexec : ∀ (i : Instr) (w : Word) (t v : State), exec i (s.latchFetch w) = .next t →
      exec i (u.latchFetch w) = .next v → related t v) :
    OutcomesAgree related (step s) (step u) := by
  obtain ⟨himem, hplen⟩ := hprog
  have hhu : u.halted = s.halted := by rw [State.halted, State.halted, hpc, hplen]
  have hfetch : u.fetchWord = s.fetchWord := by rw [State.fetchWord, State.fetchWord, hpc, himem]
  have hdu : decode u.fetchWord u.plen = decode s.fetchWord s.plen := by rw [hfetch, hplen]
  cases hh : s.halted with
  | true => rw [step_of_halted hh, step_of_halted (hhu.trans hh)]; exact h
  | false =>
    cases hd : decode s.fetchWord s.plen with
    | error c => rw [step_of_error hh hd, step_of_error (hhu.trans hh) (hdu.trans hd)]; rfl
    | ok i =>
      rw [step_of_ok hh hd, step_of_ok (hhu.trans hh) (hdu.trans hd), hfetch]
      obtain ⟨t, ht⟩ := exec_answers_next i (s.latchFetch s.fetchWord)
      obtain ⟨v, hv⟩ := exec_answers_next i (u.latchFetch s.fetchWord)
      rw [ht, hv]
      exact hexec i s.fetchWord t v ht hv

/-- Outcomes of two steps that agree, taken apart: a step is never refused. -/
theorem outcomesAgree_step_cases {related : State → State → Prop} (h : OutcomesAgree related (step s) (step u)) :
    (∃ t v, step s = .next t ∧ step u = .next v ∧ related t v) ∨ ∃ f, step s = .fault f ∧ step u = .fault f := by
  cases hs : step s with
  | refused r => exact absurd hs (step_not_refused s r)
  | next t =>
    cases hu : step u with
    | next v => rw [hs, hu] at h; exact .inl ⟨t, v, rfl, rfl, h⟩
    | fault f => rw [hs, hu] at h; exact h.elim
    | refused r => exact absurd hu (step_not_refused u r)
  | fault f =>
    cases hu : step u with
    | next v => rw [hs, hu] at h; exact h.elim
    | fault g => rw [hs, hu] at h; exact .inr ⟨f, rfl, congrArg _ (Eq.symm h)⟩
    | refused r => exact absurd hu (step_not_refused u r)

/-- A relation that every step keeps is kept by every run. -/
theorem core_run_agrees {related : State → State → Prop}
    (hstep : ∀ s u, related s u → OutcomesAgree related (step s) (step u)) (n : Nat) :
    ∀ s u, related s u → OutcomesAgree related (Sys2Proof.core.run n s) (Sys2Proof.core.run n u) := by
  induction n with
  | zero => exact fun s u h => h
  | succ n ih =>
    intro s u h
    rcases outcomesAgree_step_cases (hstep s u h) with ⟨t, v, hs, hu, htv⟩ | ⟨f, hs, hu⟩
    · rw [core_run_of_next n hs, core_run_of_next n hu]
      exact ih t v htv
    · rw [core_run_of_fault n hs, core_run_of_fault n hu]
      rfl

theorem exec_programSame_congr (ht : exec i s = .next t) (hv : exec i u = .next v) (h : ProgramSame s u) :
    ProgramSame t v := by
  obtain ⟨himems, hplens⟩ := exec_programSame ht
  obtain ⟨himemu, hplenu⟩ := exec_programSame hv
  obtain ⟨himem, hplen⟩ := h
  exact ⟨by rw [himemu, himem, himems], by rw [hplenu, hplen, hplens]⟩

/-- What a program can observe after an execution comes from what it could observe before it: the flags an instruction
defines are made of registers, and the others are kept. -/
theorem exec_observableSame (h : ObservableSame s u) (ht : exec i s = .next t) (hv : exec i u = .next v) :
    ObservableSame t v := by
  obtain ⟨hregs, hz, hn, hc, hpc, himem, hplen⟩ := h
  have hregs' := exec_regs_congr ht hv hregs
  have hpc' := exec_pc_congr ht hv (flagRead_congr hz hn hc) hpc
  obtain ⟨himem', hplen'⟩ := exec_programSame_congr ht hv ⟨himem, hplen⟩
  have hft := exec_flags ht
  have hfv := exec_flags hv
  cases hd : flagDefining i with
  | true =>
    rw [flagsLeft_congr_of_flagDefining (fun r _ => readReg_eq_of_regs hregs r) hd, ← hft] at hfv
    exact ⟨hregs', by rw [hfv], by rw [hfv], by rw [hfv], hpc', himem', hplen'⟩
  | false =>
    rw [flagsLeft_of_not_flagDefining hd] at hft hfv
    exact ⟨hregs', by rw [hft, hfv, hz], by rw [hft, hfv, hn], by rw [hft, hfv, hc], hpc', himem', hplen'⟩

theorem ObservableSame.latchFetch (h : ObservableSame s u) (w : Word) :
    ObservableSame (s.latchFetch w) (u.latchFetch w) :=
  ⟨h.regs, h.z, h.n, h.c, h.pc, h.imem, h.plen⟩

theorem step_observableSame (h : ObservableSame s u) : OutcomesAgree ObservableSame (step s) (step u) :=
  step_agrees h h.pc ⟨h.imem, h.plen⟩ fun _ w _ _ => exec_observableSame (h.latchFetch w)

/-- The buses before an execution reach nothing but the buses after it. -/
theorem exec_sameButBuses (h : SameButBuses s u) (ht : exec i s = .next t) (hv : exec i u = .next v) :
    SameButBuses t v := by
  obtain ⟨hregs, hmem, hpc, hir, hmar, hmdr, hflags, himem, hplen⟩ := h
  have hread : ∀ r ∈ readRegs i, u.readReg r = s.readReg r := fun r _ => readReg_eq_of_regs hregs r
  have hstored := storedByte_congr hread
  obtain ⟨himem', hplen'⟩ := exec_programSame_congr ht hv ⟨himem, hplen⟩
  exact {
    regs := exec_regs_congr ht hv hregs
    mem := by rw [exec_mem hv, exec_mem ht, hstored, hmem]
    pc := exec_pc_congr ht hv (by rw [hflags]) hpc
    ir := by rw [exec_ir hv, exec_ir ht, hir]
    mar := by rw [exec_mar hv, exec_mar ht, hstored, hmar]
    mdr := by rw [exec_mdr hv, exec_mdr ht, hstored, hmdr]
    flags := by rw [exec_flags hv, exec_flags ht, flagsLeft_congr hread hflags]
    imem := himem'
    plen := hplen' }

theorem SameButBuses.latchFetch (h : SameButBuses s u) (w : Word) :
    SameButBuses (s.latchFetch w) (u.latchFetch w) :=
  ⟨h.regs, h.mem, h.pc, rfl, h.mar, h.mdr, h.flags, h.imem, h.plen⟩

theorem step_sameButBuses (h : SameButBuses s u) : OutcomesAgree SameButBuses (step s) (step u) :=
  step_agrees h h.pc ⟨h.imem, h.plen⟩ fun _ w _ _ => exec_sameButBuses (h.latchFetch w)

end Sys2Proof.Machine
end

section
/-! SUPPORT. Codes: the packed flags (R41), the Control Bus tag (R45), and the word of JMP (R97, R118). -/

namespace Sys2Proof.Machine

theorem getLsbD_pack (f : Flags) :
    f.pack.getLsbD 3 = f.z ∧ f.pack.getLsbD 2 = f.n ∧ f.pack.getLsbD 1 = f.v ∧ f.pack.getLsbD 0 = f.c := by
  simp only [Flags.pack, BitVec.getLsbD_append]
  simp

theorem unpack_pack (f : Flags) : Flags.unpack f.pack = f := by
  obtain ⟨hz, hn, hv, hc⟩ := getLsbD_pack f
  rw [Flags.unpack, hz, hn, hv, hc]

theorem pack_unpack (p : BitVec 4) : (Flags.unpack p).pack = p := by
  obtain ⟨hz, hn, hv, hc⟩ := getLsbD_pack (Flags.unpack p)
  refine BitVec.eq_of_getLsbD_eq fun k hk => ?_
  interval_cases k
  · exact hc
  · exact hv
  · exact hn
  · exact hz

theorem ofCode_code (tag : BusTag) : BusTag.ofCode tag.code = tag := by
  cases tag <;> rfl

theorem code_ofCode : ∀ c : BitVec 2, (BusTag.ofCode c).code = c := by
  decide

theorem busTable_cbus_of_load {i : Instr} {s : State} (h : i.mnemonic = .load) : (busTable i s).cbus = .imm := by
  cases i <;> simp_all [busTable, Instr.mnemonic]

theorem busTable_cbus_of_store {i : Instr} {s : State} (h : i.mnemonic = .store) : (busTable i s).cbus = .memwr := by
  cases i <;> simp_all [busTable, Instr.mnemonic]

theorem busTable_cbus_of_neither {i : Instr} {s : State} (hl : i.mnemonic ≠ .load) (hs : i.mnemonic ≠ .store) :
    (busTable i s).cbus = .fetch := by
  cases i <;> simp_all [busTable, Instr.mnemonic]

end Sys2Proof.Machine

namespace Sys2Proof

theorem opOf_encode_jmp (line : Line) : opOf (encode (.jmp line)) = Mnemonic.jmp.opcode := by
  refine BitVec.eq_of_getLsbD_eq fun k hk => ?_
  interval_cases k <;> simp [opOf, encode, Mnemonic.opcode]

theorem line8Of_encode_jmp (line : Line) : line8Of (encode (.jmp line)) = line := by
  refine BitVec.eq_of_getLsbD_eq fun k hk => ?_
  interval_cases k <;> simp [line8Of, encode]

theorem reserved_encode_jmp (line : Line) : encode (.jmp line) &&& Mnemonic.jmp.format.reservedMask = 0 := by
  refine BitVec.eq_of_getLsbD_eq fun k hk => ?_
  interval_cases k <;> simp [encode, Mnemonic.format, Format.reservedMask]

theorem decode_encode_jmp {plen : Byte} {line : Line} (h : line.toNat < plen.toNat) :
    decode (encode (.jmp line)) plen = .ok (.jmp line) := by
  have hmnemonic : mnemonicOf Mnemonic.jmp.opcode = some .jmp := rfl
  have hword : decodeWord (encode (.jmp line)) = .ok (.jmp line) := by
    simp [decodeWord, opOf_encode_jmp, hmnemonic, reserved_encode_jmp, Mnemonic.withFields, line8Of_encode_jmp]
  have hwf : (Instr.jmp line).wellFormedFor plen = true := (Machine.wellFormedFor_iff_of_target rfl).2 h
  simp [decode, hword, hwf]

end Sys2Proof
end

section
/-! SUPPORT. The statements about the state settled. -/

namespace Sys2Proof.Machine

/-- Settles O22: a step keeps what a program can observe, so a run of any length does. -/
theorem unreadStateNeverInfluencesAnyRun : Obligations.UnreadStateNeverInfluencesAnyRun :=
  core_run_agrees fun _ _ => step_observableSame

/-- Settles O48: a step writes memory only through `Memory.write`, keeps the program, and leaves the pc at most PLEN. -/
theorem everyStepKeepsTheInvariant : Obligations.EveryStepKeepsTheInvariant :=
  fun _ _ => step_keeps_inv

/-- Settles O17: decode has checked the target of a jump, and below PLEN the pc has room for one more. -/
theorem pcNeverPassesTheProgramEnd : Obligations.PcNeverPassesTheProgramEnd := by
  refine ⟨fun s h => result_ne_halted (halted_eq_false_iff.2 h), fun plen line => decode_encode_jmp, ?_⟩
  intro s t hpc hstep
  refine ⟨toNat_pc_add_one hpc, step_pc_le_plen hpc hstep, ?_⟩
  rcases step_pc_cases hpc hstep with hnext | ⟨i, hd, htarget, hb, hlt⟩
  · exact .inl hnext
  · exact .inr ⟨i, t.pc, hd, htarget, hb, rfl, hlt⟩

/-- Settles O19: an execution leaves what the tables say, and the tables read no register but those listed. -/
theorem registersWrittenAndReadAsListed : Obligations.RegistersWrittenAndReadAsListed := by
  refine ⟨fun i s => ?_, fun i s u hread hflags hpc => ?_, fun s r => readReg_hostReset r, fun s u r => rfl⟩
  · obtain ⟨t, ht⟩ := exec_answers_next i s
    refine ⟨t, ht, exec_regsSameExcept ht, fun r => exec_readReg_written ht, exec_flags ht, ?_⟩
    rintro rx addr rfl
    have hstored := exec_read_writtenCell ht rfl
    exact (congrArg Prod.snd (Option.some.inj hstored)).symm
  · obtain ⟨t, ht⟩ := exec_answers_next i s
    obtain ⟨v, hv⟩ := exec_answers_next i u
    refine ⟨t, v, ht, hv, fun r => exec_readReg_written_congr ht hv hread, ?_,
      exec_pc_congr ht hv (by rw [hflags]) hpc, fun a ha => ?_⟩
    · rw [exec_flags hv, exec_flags ht, flagsLeft_congr hread hflags]
    · have hstored := (exec_read_writtenCell hv ha).symm.trans
        ((storedByte_congr hread).trans (exec_read_writtenCell ht ha))
      exact congrArg Prod.snd (Option.some.inj hstored)

/-- Settles O20: a change of the flags shows in the flags and the pc alone, and in the pc only where the flag that the
instruction reads has changed. -/
theorem flagsReadAsListed : Obligations.FlagsReadAsListed := by
  intro i s f
  obtain ⟨t, ht⟩ := exec_answers_next i s
  obtain ⟨u, hu⟩ := exec_answers_next i (s.setFlags f)
  have hut := exec_setFlags ht hu
  have hstaging : StagingSame t u := hut ▸ ⟨rfl, rfl⟩
  have hbuses : BusesSame t u := hut ▸ ⟨rfl, rfl, rfl⟩
  have hprogram : ProgramSame t u := exec_programSame_congr ht hu ⟨rfl, rfl⟩
  refine ⟨t, u, ht, hu, exec_regs_congr ht hu rfl, congrArg (·.mem) hut, congrArg (·.ir) hut, hstaging, hbuses, hprogram,
    fun hd => ?_, fun hd => ⟨?_, ?_⟩, fun hf => exec_pc_congr ht hu hf rfl, fun v => ?_⟩
  · rw [exec_flags hu, exec_flags ht]
    exact flagsLeft_congr_of_flagDefining (fun r _ => readReg_setFlags s f r) hd
  · rw [exec_flags ht, flagsLeft_of_not_flagDefining hd]
  · rw [exec_flags hu, flagsLeft_of_not_flagDefining hd, setFlags_flags]
  · obtain ⟨x, hx⟩ := exec_answers_next i (s.setFlags { s.flags with v := v })
    exact ⟨x, hx, exec_pc_congr ht hx (flagRead_congr rfl rfl rfl) rfl⟩

/-- Settles O21: the execution of a fetched instruction makes nothing but buses of the buses. -/
theorem busesNeverInfluenceAnythingElse : Obligations.BusesNeverInfluenceAnythingElse :=
  ⟨fun _ _ => step_sameButBuses, fun _ _ _ => result_ok_trace⟩

/-- Settles O40: every field of `ArchState.reset` is its zero. -/
theorem resetValues : Obligations.ResetValues := by
  intro s
  exact ⟨fun r => readReg_hostReset r, fun a => rfl, rfl, rfl, rfl, rfl, rfl, rfl, rfl, rfl, rfl, rfl, rfl, ⟨rfl, rfl⟩, rfl⟩

/-- Settles O46: packing puts each flag at its bit, and the four bits are all of a packed value. -/
theorem flagsPackAsZnvc : Obligations.FlagsPackAsZnvc :=
  ⟨getLsbD_pack, unpack_pack, pack_unpack⟩

/-- Settles O49: the reset memory is empty and the reset pc is 0; `core.reset` is its own reset. -/
theorem resetEstablishesTheInvariant : Obligations.ResetEstablishesTheInvariant :=
  ⟨hostReset_inv (s := State.reset) rfl, fun _ => hostReset_inv⟩

/-- Settles O60: the tag after a step is that of the table of R141. -/
theorem busTagCodes : Obligations.BusTagCodes := by
  refine ⟨rfl, rfl, rfl, rfl, ofCode_code, code_ofCode, fun s => rfl, fun s i hpc hd => ?_⟩
  obtain ⟨t, ht⟩ := exec_answers_next i (s.latchFetch s.fetchWord)
  have hcbus : t.cbus = (busTable i s).cbus := congrArg BusTrace.cbus (exec_latchFetch_busTrace ht)
  refine ⟨t, (step_of_ok (halted_eq_false_iff.2 hpc) hd).trans ht, ?_⟩
  rw [hcbus]
  exact ⟨busTable_cbus_of_load, busTable_cbus_of_store, busTable_cbus_of_neither⟩

end Sys2Proof.Machine
end

section
/-! SUPPORT. Canonical stores: what they read as determines them (R60). -/

namespace Sys2Proof.Machine

variable {w : Nat}

theorem cellsCanonical_cons {lo hi k : Nat} {v : BitVec w} {rest : List (Nat × BitVec w)} :
    cellsCanonical lo hi ((k, v) :: rest) = true ↔
      lo ≤ k ∧ k < hi ∧ v ≠ 0#w ∧ cellsCanonical (k + 1) hi rest = true := by
  simp [cellsCanonical, and_assoc]

theorem cellsRead_cons_same {k : Nat} {v : BitVec w} {rest : List (Nat × BitVec w)} :
    cellsRead ((k, v) :: rest) k = v := by
  simp [cellsRead]

theorem cellsRead_cons_above {k a : Nat} {v : BitVec w} {rest : List (Nat × BitVec w)} (h : k < a) :
    cellsRead ((k, v) :: rest) a = cellsRead rest a := by
  simp [cellsRead, Nat.ne_of_lt h]

/-- The first listed place of a canonical list is not below that of another one that reads alike: the other reads 0 below
its own first place, and no listed value is 0. -/
theorem cells_first_place_le {lo lo' hi k k' : Nat} {v v' : BitVec w} {rest rest' : List (Nat × BitVec w)}
    (hm : cellsCanonical lo hi ((k, v) :: rest) = true) (hm' : cellsCanonical lo' hi ((k', v') :: rest') = true)
    (hread : cellsRead ((k, v) :: rest) k = cellsRead ((k', v') :: rest') k) : k' ≤ k := by
  obtain ⟨-, -, hv, -⟩ := cellsCanonical_cons.1 hm
  obtain ⟨-, hk', hv', hrest'⟩ := cellsCanonical_cons.1 hm'
  by_contra hlt
  rw [cellsRead_cons_same,
    cellsRead_below _ (cellsCanonical_cons.2 ⟨le_refl k', hk', hv', hrest'⟩) (Nat.lt_of_not_le hlt)] at hread
  exact hv hread

/-- A canonical list that reads 0 everywhere lists nothing. -/
theorem cells_eq_nil_of_read_zero {lo hi : Nat} {m : List (Nat × BitVec w)} (hm : cellsCanonical lo hi m = true)
    (hread : ∀ a, lo ≤ a → a < hi → cellsRead m a = 0#w) : m = [] := by
  cases m with
  | nil => rfl
  | cons e rest =>
    obtain ⟨k, v⟩ := e
    obtain ⟨hlo, hhi, hv, -⟩ := cellsCanonical_cons.1 hm
    exact absurd (cellsRead_cons_same.symm.trans (hread k hlo hhi)) hv

/-- Canonical lists that read alike at every place of the store are equal. -/
theorem cells_ext {lo hi : Nat} {m m' : List (Nat × BitVec w)} (hm : cellsCanonical lo hi m = true)
    (hm' : cellsCanonical lo hi m' = true) (hread : ∀ a, lo ≤ a → a < hi → cellsRead m a = cellsRead m' a) :
    m = m' := by
  induction m generalizing lo m' with
  | nil => exact (cells_eq_nil_of_read_zero hm' fun a hlo hhi => (hread a hlo hhi).symm).symm
  | cons e rest ih =>
    obtain ⟨k, v⟩ := e
    cases m' with
    | nil => exact cells_eq_nil_of_read_zero hm hread
    | cons e' rest' =>
      obtain ⟨k', v'⟩ := e'
      obtain ⟨hlo, hhi, -, hrest⟩ := cellsCanonical_cons.1 hm
      obtain ⟨hlo', hhi', -, hrest'⟩ := cellsCanonical_cons.1 hm'
      obtain rfl : k = k' :=
        le_antisymm (cells_first_place_le hm' hm (hread k' hlo' hhi').symm)
          (cells_first_place_le hm hm' (hread k hlo hhi))
      obtain rfl : v = v' := cellsRead_cons_same.symm.trans ((hread k hlo hhi).trans cellsRead_cons_same)
      congr 1
      refine ih hrest hrest' fun a hka hah => ?_
      rw [← cellsRead_cons_above hka, hread a (hlo.trans (Nat.le_of_lt hka)) hah, cellsRead_cons_above hka]

/-! ### Program load (R70) -/

/-- Each line that a load writes reads as its word. -/
theorem ProgramStore.read_writeAll {p : ProgramStore} {l k : Nat} {ws : List Word} {x : Word} (h : ws[k]? = some x) :
    (p.writeAll l ws).read (l + k) = x := by
  induction ws generalizing p l k with
  | nil => cases h
  | cons y ws ih =>
    rw [ProgramStore.writeAll]
    cases k with
    | zero =>
      calc ((p.write l y).writeAll (l + 1) ws).read l
          = (p.write l y).read l := ProgramStore.read_writeAll_below _ _ _ _ (Nat.lt_add_one l)
        _ = y := ProgramStore.read_write_same p l y
        _ = x := Option.some.inj h
    | succ k =>
      rw [Nat.add_comm k 1, ← Nat.add_assoc]
      exact ih h

/-- A load leaves the lines above its last one alone. -/
theorem ProgramStore.read_writeAll_above {p : ProgramStore} {l k : Nat} {ws : List Word} (h : l + ws.length ≤ k) :
    (p.writeAll l ws).read k = p.read k := by
  induction ws generalizing p l with
  | nil => rfl
  | cons y ws ih =>
    rw [List.length_cons] at h
    rw [ProgramStore.writeAll, ih (by omega), ProgramStore.read_write_other _ _ _ _ (by omega)]

end Sys2Proof.Machine
end

section
/-! SUPPORT. The program image: a word is two bytes, the high one first (R67). -/

namespace Sys2Proof

theorem programImage_cons (w : Word) (ws : List Word) : programImage (w :: ws) = wordBytes w ++ programImage ws := by
  rw [programImage, List.flatMap_cons, programImage]

/-- The bytes of a word are its quotient and remainder by 256. -/
theorem wordBytes_eq (w : Word) : wordBytes w = [BitVec.ofNat 8 (w.toNat / 256), BitVec.ofNat 8 (w.toNat % 256)] := by
  have hhi : w.extractLsb' 8 8 = BitVec.ofNat 8 (w.toNat / 256) := by
    rw [BitVec.extractLsb', Nat.shiftRight_eq_div_pow]
  have hlo : w.extractLsb' 0 8 = BitVec.ofNat 8 (w.toNat % 256) := by
    refine BitVec.eq_of_toNat_eq ?_
    simp
  rw [wordBytes, hhi, hlo]

/-- The two bytes of a word put together again. -/
theorem joinBytes_wordBytes (w : Word) :
    (w.extractLsb' 8 8).setWidth 16 <<< 8 ||| (w.extractLsb' 0 8).setWidth 16 = w := by
  refine BitVec.eq_of_getLsbD_eq fun k hk => ?_
  by_cases h : k < 8
  · simp [h, hk]
  · have hsub : k - 8 < 8 := by omega
    simp [h, hk, hsub, show 8 + (k - 8) = k by omega]

theorem imageWords_programImage (ws : List Word) : imageWords (programImage ws) = some ws := by
  induction ws with
  | nil => rfl
  | cons w ws ih =>
    rw [programImage_cons, wordBytes, List.cons_append, List.singleton_append, imageWords, ih, joinBytes_wordBytes,
      Option.map_some]

theorem length_programImage (ws : List Word) : (programImage ws).length = 2 * ws.length := by
  induction ws with
  | nil => rfl
  | cons w ws ih =>
    rw [programImage_cons, List.length_append, ih, wordBytes_eq, List.length_cons]
    simp only [List.length_cons, List.length_nil]
    omega

/-- The bytes of word `k` stand at `2k` and `2k + 1`. -/
theorem getElem?_programImage {ws : List Word} {k : Nat} {w : Word} (h : ws[k]? = some w) :
    (programImage ws)[2 * k]? = some (BitVec.ofNat 8 (w.toNat / 256)) ∧
    (programImage ws)[2 * k + 1]? = some (BitVec.ofNat 8 (w.toNat % 256)) := by
  induction ws generalizing k with
  | nil => cases h
  | cons x ws ih =>
    rw [programImage_cons, wordBytes_eq]
    cases k with
    | zero =>
      obtain rfl : x = w := Option.some.inj h
      exact ⟨rfl, rfl⟩
    | succ k => exact ih h

end Sys2Proof
end

section
/-! SUPPORT. What executions and steps make of the data memory, and of the program they run (R61, R70, R77). -/

namespace Sys2Proof.Machine

variable {i : Instr} {s t u : State}

/-! ### The data memory (R61) -/

theorem storedByte_eq_none (h : i.mnemonic ≠ .store) : storedByte i s = none := by
  cases i <;> simp_all [storedByte, Instr.mnemonic]

theorem exec_mem_of_ne_store (ht : exec i s = .next t) (h : i.mnemonic ≠ .store) : t.mem = s.mem := by
  rw [exec_mem ht, storedByte_eq_none h]
  rfl

theorem exec_store_read {rx : Reg} {addr : Addr} (ht : exec (.store rx addr) s = .next t) :
    t.mem.read addr = s.readReg rx :=
  (congrArg Prod.snd (Option.some.inj (exec_read_writtenCell ht rfl))).symm

theorem exec_memSameExcept (ht : exec i s = .next t) : MemSameExcept (writtenCell i) s t := by
  intro b hb
  rw [exec_mem ht]
  cases hstored : storedByte i s with
  | none => rfl
  | some e =>
    have hcell : writtenCell i = some e.1 := by rw [← storedByte_cell i s, hstored, Option.map_some]
    exact s.mem.read_write_other e.1 b e.2 fun he => hb (hcell.trans (congrArg some he))

/-- A change of the memory before an execution shows after it in the memory alone. -/
theorem exec_setMem {m : Memory} (ht : exec i s = .next t) (hu : exec i { s with mem := m } = .next u) :
    u = { t with mem := u.mem } := by
  cases i <;> cases ht <;> cases hu <;> rfl

/-! ### The program (R77) -/

theorem step_programSame (h : step s = .next t) : ProgramSame s t := by
  rcases step_next_cases h with ⟨-, rfl⟩ | ⟨-, i, -, hexec⟩
  · exact ⟨rfl, rfl⟩
  · obtain ⟨himem, hplen⟩ := exec_programSame hexec
    exact ⟨himem, hplen⟩

theorem loadProgram_plen {words : List Word} (h : s.loadProgram words = some t) : t.plen.toNat = words.length := by
  obtain ⟨hlen, rfl⟩ := loadProgram_cases h
  rw [BitVec.toNat_ofNat]
  exact Nat.mod_eq_of_lt (Nat.lt_succ_of_le hlen)

theorem loadProgram_read {words : List Word} {k : Nat} {w : Word} (h : s.loadProgram words = some t)
    (hw : words[k]? = some w) : t.imem.read k = w := by
  obtain ⟨-, rfl⟩ := loadProgram_cases h
  rw [← Nat.zero_add k]
  exact ProgramStore.read_writeAll hw

theorem loadProgram_read_above {words : List Word} {k : Nat} (h : s.loadProgram words = some t)
    (hk : words.length ≤ k) : t.imem.read k = s.imem.read k := by
  obtain ⟨-, rfl⟩ := loadProgram_cases h
  exact ProgramStore.read_writeAll_above ((Nat.zero_add _).trans_le hk)

theorem loadProgram_hostRead {words : List Word} (h : s.loadProgram words = some t) : t.hostRead = s.hostRead := by
  obtain ⟨-, rfl⟩ := loadProgram_cases h
  rfl

theorem loadProgram_of_length_le {words : List Word} (h : words.length ≤ Config.maxProgLen) :
    ∃ t, s.loadProgram words = some t := by
  simp [State.loadProgram, h]

/-! ### The lines that no step fetches (R70) -/

/-- `s` with other contents of its instruction store. -/
def State.setImem (s : State) (q : ProgramStore) : State := { s with imem := q }

@[simp] theorem setImem_hostRead (q : ProgramStore) : (s.setImem q).hostRead = s.hostRead := rfl
@[simp] theorem setImem_busTrace (q : ProgramStore) : (s.setImem q).busTrace = s.busTrace := rfl
@[simp] theorem setImem_halted (q : ProgramStore) : (s.setImem q).halted = s.halted := rfl
@[simp] theorem setImem_plen (q : ProgramStore) : (s.setImem q).plen = s.plen := rfl
@[simp] theorem latchFetch_setImem (q : ProgramStore) (w : Word) :
    (s.setImem q).latchFetch w = (s.latchFetch w).setImem q := rfl

/-- An execution reads nothing of the instruction store. -/
theorem exec_setImem (q : ProgramStore) (ht : exec i s = .next t) : exec i (s.setImem q) = .next (t.setImem q) := by
  cases i <;> cases ht <;> rfl

/-- A step reads of the instruction store no more than the word it fetches, and that only where the core is not halted. -/
theorem stepRequest_setImem {q : ProgramStore} (hq : s.halted = false → (s.setImem q).fetchWord = s.fetchWord) :
    (s.setImem q).result = s.result ∧ (s.setImem q).after = s.after.setImem q := by
  cases hh : s.halted with
  | true =>
    have hhq : (s.setImem q).halted = true := (setImem_halted q).trans hh
    exact ⟨by rw [result_of_halted hh, result_of_halted hhq],
      by rw [after_of_next (step_of_halted hh), after_of_next (step_of_halted hhq)]⟩
  | false =>
    have hhq : (s.setImem q).halted = false := (setImem_halted q).trans hh
    have hdq : decode (s.setImem q).fetchWord (s.setImem q).plen = decode s.fetchWord s.plen := by
      rw [hq hh, setImem_plen]
    cases hd : decode s.fetchWord s.plen with
    | error c =>
      rw [hd] at hdq
      exact ⟨by rw [result_of_error hh hd, result_of_error hhq hdq],
        by rw [after_of_fault (step_of_error hh hd), after_of_fault (step_of_error hhq hdq)]⟩
    | ok i =>
      rw [hd] at hdq
      obtain ⟨t, ht⟩ := exec_answers_next i (s.latchFetch s.fetchWord)
      have hafter : s.after = t := after_of_next ((step_of_ok hh hd).trans ht)
      have hafterq : (s.setImem q).after = t.setImem q := by
        refine after_of_next ((step_of_ok hhq hdq).trans ?_)
        rw [hq hh, latchFetch_setImem]
        exact exec_setImem q ht
      exact ⟨by rw [result_of_ok hh hd, result_of_ok hhq hdq, hafter, hafterq, setImem_busTrace],
        by rw [hafter, hafterq]⟩

end Sys2Proof.Machine
end

section
/-! SUPPORT. Decoding the word of an instruction gives the instruction back (R99, R102, R118). -/

namespace Sys2Proof

theorem mnemonicOf_opcode (m : Mnemonic) : mnemonicOf m.opcode = some m := by
  cases m <;> rfl

theorem opOf_matchBits (m : Mnemonic) : opOf m.matchBits = m.opcode := by
  cases m <;> rfl

theorem opOf_and_maskBits (w : Word) (m : Mnemonic) : opOf (w &&& m.maskBits) = opOf w := by
  have hmask : opOf m.maskBits = BitVec.allOnes 4 := by cases m <;> rfl
  rw [opOf, BitVec.extractLsb'_and, ← opOf, ← opOf, hmask, BitVec.and_allOnes]

theorem maskBits_and_reservedMask (m : Mnemonic) : m.maskBits &&& m.format.reservedMask = m.format.reservedMask := by
  cases m <;> rfl

theorem matchBits_and_reservedMask (m : Mnemonic) : m.matchBits &&& m.format.reservedMask = 0 := by
  cases m <;> rfl

/-- A word that matches a row is read as an instruction of that row, with the word's fields. -/
theorem decodeWord_of_encodedBy {m : Mnemonic} {w : Word} (h : m.encodedBy w = true) :
    decodeWord w = .ok (m.withFields w) := by
  have hmatch : w &&& m.maskBits = m.matchBits := of_decide_eq_true h
  have hop : opOf w = m.opcode := by rw [← opOf_and_maskBits w m, hmatch, opOf_matchBits]
  have hreserved : w &&& m.format.reservedMask = 0 := by
    rw [← maskBits_and_reservedMask, ← BitVec.and_assoc, hmatch, matchBits_and_reservedMask]
  simp [decodeWord, hop, mnemonicOf_opcode, hreserved]

theorem encodedBy_encode (i : Instr) : i.mnemonic.encodedBy (encode i) = true := by
  cases i with
  | load rx val => exact Laws.EncodesToRow.load rx val
  | store rx addr => exact Laws.EncodesToRow.store rx addr
  | mov rd rs => exact Laws.EncodesToRow.mov rd rs
  | add rd rs1 rs2 => exact Laws.EncodesToRow.add rd rs1 rs2
  | sub rd rs1 rs2 => exact Laws.EncodesToRow.sub rd rs1 rs2
  | mul rd rs1 rs2 => exact Laws.EncodesToRow.mul rd rs1 rs2
  | inc rx => exact Laws.EncodesToRow.inc rx
  | dec rx => exact Laws.EncodesToRow.dec rx
  | cmp rx ry => exact Laws.EncodesToRow.cmp rx ry
  | jmp line => exact Laws.EncodesToRow.jmp line
  | jz line => exact Laws.EncodesToRow.jz line
  | jnz line => exact Laws.EncodesToRow.jnz line
  | jc line => exact Laws.EncodesToRow.jc line
  | jn line => exact Laws.EncodesToRow.jn line
  | nop => exact Laws.EncodesToRow.nop

/-! ### Fields of an encoded word (R93, R118) -/

section Placed

variable {n : Nat} (x : BitVec n)

/-- The field at which an operand is placed in a word reads as the operand. -/
theorem extractLsb'_placed {k : Nat} (h : k + n ≤ 16) : (x.setWidth 16 <<< k).extractLsb' k n = x := by
  refine BitVec.eq_of_getLsbD_eq fun j hj => ?_
  have hk : k + j < 16 := by omega
  simp [hj, hk]

/-- A field below an operand's place reads nothing of it. -/
theorem extractLsb'_placed_below {start len k : Nat} (h : start + len ≤ k) :
    (x.setWidth 16 <<< k).extractLsb' start len = 0 := by
  refine BitVec.eq_of_getLsbD_eq fun j hj => ?_
  have hk : start + j < k := by omega
  simp [hk]

/-- A field above an operand's place reads nothing of it. -/
theorem extractLsb'_placed_above {start len k : Nat} (h : k + n ≤ start) :
    (x.setWidth 16 <<< k).extractLsb' start len = 0 := by
  refine BitVec.eq_of_getLsbD_eq fun j hj => ?_
  have hk : n ≤ start + j - k := by omega
  simp [BitVec.getLsbD_of_ge x _ hk]

theorem extractLsb'_low (h : n ≤ 16) : (x.setWidth 16).extractLsb' 0 n = x := by
  simpa using extractLsb'_placed x (k := 0) (by omega)

theorem extractLsb'_above_low {start len : Nat} (h : n ≤ start) : (x.setWidth 16).extractLsb' start len = 0 := by
  simpa using extractLsb'_placed_above x (k := 0) (len := len) ((Nat.zero_add n).trans_le h)

end Placed

/-- The encoder places each operand at the field that the decoder reads it from, and no other part of the word reaches that
field. -/
theorem withFields_encode (i : Instr) : i.mnemonic.withFields (encode i) = i := by
  cases i <;> simp [Instr.mnemonic, Mnemonic.withFields, encode, raOf, rbOf, rcOf, imm8Of, addr6Of, line8Of,
    BitVec.extractLsb'_or, extractLsb'_placed, extractLsb'_placed_below, extractLsb'_placed_above, extractLsb'_low,
    extractLsb'_above_low]

theorem decodeWord_encode (i : Instr) : decodeWord (encode i) = .ok i := by
  rw [decodeWord_of_encodedBy (encodedBy_encode i), withFields_encode]

theorem decode_encode {plen : Byte} {i : Instr} (h : i.wellFormedFor plen = true) :
    decode (encode i) plen = .ok i := by
  simp [decode, decodeWord_encode, h]

end Sys2Proof
end

section
/-! SUPPORT. What validation and assembly answer for a source without errors (R116, R119). -/

namespace Sys2Proof

variable {plen k : Nat} {line : List Char} {src : List Char} {p : List Instr} {i : Instr}

/-- Operands are collected without an error only if each has a value. -/
theorem eq_map_ok_of_collectOperands {es : List (Except ErrorKind Nat)} {vs : List Nat}
    (h : collectOperands es = ([], vs)) : es = vs.map .ok := by
  induction es generalizing vs with
  | nil => cases h; rfl
  | cons e es ih =>
    cases e with
    | error e => simp [collectOperands] at h
    | ok v =>
      obtain ⟨herrors, rfl⟩ := Prod.mk.inj h
      rw [List.map_cons, ← ih (Prod.ext herrors rfl)]

/-- What a line can parse to: some errors, or an instruction made of operand values that one of its opcode's shapes allows. -/
theorem parseLine_cases {r : Except (List ErrorKind) Instr} (h : parseLine plen line = r) :
    (∃ e es, r = .error (e :: es)) ∨
    ∃ i, r = .ok i ∧ ∃ m : Mnemonic, ∃ shape ∈ m.shapes, ∃ vs : List Nat,
      List.zipWith (operandValue plen) shape (operandTokens line) = vs.map .ok ∧ m.withOperands vs = some i := by
  unfold parseLine at h
  dsimp only at h
  split at h
  · exact .inl ⟨_, _, h.symm⟩
  · next m _ =>
    split at h
    · exact .inl ⟨_, _, h.symm⟩
    · next shape hshape =>
      split at h
      · next vs hvs =>
        split at h
        · next i hi =>
          exact .inr ⟨i, h.symm, m, shape, List.mem_of_find?_eq_some hshape, vs, eq_map_ok_of_collectOperands hvs, hi⟩
        · exact .inl ⟨_, _, h.symm⟩
      · next errors _ hne _ =>
        have hdedup : errors.dedup ≠ [] := fun he => hne ((List.dedup_eq_nil errors).1 he)
        obtain ⟨e, es, hes⟩ := List.exists_cons_of_ne_nil hdedup
        exact .inl ⟨e, es, by rw [← h, hes]⟩

theorem exists_ok_of_parseErrors_eq_nil (h : parseErrors plen line = []) : ∃ i, parseLine plen line = .ok i := by
  rcases parseLine_cases (plen := plen) (line := line) rfl with ⟨e, es, herr⟩ | ⟨i, hi, -⟩
  · rw [parseErrors, herr] at h
    cases h
  · exact ⟨i, hi⟩

theorem lineErrors_eq_nil (h : lineErrors plen k line = []) : k < Config.maxProgLen ∧ parseErrors plen line = [] := by
  unfold lineErrors at h
  split at h
  · simp at h
  · next hk =>
    refine ⟨?_, h⟩
    simpa [h] using hk

theorem lineErrors_of_validate_eq_nil (h : validate src = []) (hk : (instructionLines src)[k]? = some line) :
    lineErrors (instructionLines src).length k line = [] := by
  rw [validate, List.flatMap_eq_nil_iff] at h
  exact List.map_eq_nil_iff.1 (h (line, k) (List.mem_zipIdx_iff_getElem?.2 hk))

theorem assemble_ok_cases (h : assemble src = .ok p) :
    validate src = [] ∧ p = (instructionLines src).filterMap (parseInstr (instructionLines src).length) := by
  unfold assemble at h
  split at h
  · next hv => exact ⟨hv, (Except.ok.inj h).symm⟩
  · cases h

theorem parseInstr_eq_some_iff : parseInstr plen line = some i ↔ parseLine plen line = .ok i := by
  unfold parseInstr
  split <;> simp_all

/-- Each line of a source without errors parses. -/
theorem exists_parseInstr_of_validate_eq_nil (h : validate src = []) (hl : line ∈ instructionLines src) :
    ∃ i, parseInstr (instructionLines src).length line = some i := by
  obtain ⟨k, hk⟩ := List.mem_iff_getElem?.1 hl
  obtain ⟨-, hparse⟩ := lineErrors_eq_nil (lineErrors_of_validate_eq_nil h hk)
  obtain ⟨i, hi⟩ := exists_ok_of_parseErrors_eq_nil hparse
  exact ⟨i, parseInstr_eq_some_iff.2 hi⟩

theorem length_instructionLines_le (h : validate src = []) : (instructionLines src).length ≤ Config.maxProgLen := by
  by_contra hlen
  have hk := List.getElem?_eq_getElem (Nat.lt_of_not_le hlen)
  exact absurd (lineErrors_eq_nil (lineErrors_of_validate_eq_nil h hk)).1 (Nat.lt_irrefl _)

theorem assemble_length (h : assemble src = .ok p) : p.length = (instructionLines src).length := by
  obtain ⟨hv, rfl⟩ := assemble_ok_cases h
  refine List.filterMap_length_eq_length.2 fun line hl => ?_
  exact Option.isSome_iff_exists.2 (exists_parseInstr_of_validate_eq_nil hv hl)

/-! ### Jump targets (R116) -/

/-- An instruction with a jump target has one operand, and it is a line. -/
theorem withOperands_target {m : Mnemonic} {vs : List Nat} {target : Line} (h : m.withOperands vs = some i)
    (ht : i.target? = some target) : m.shapes = [[.line]] ∧ ∃ n, vs = [n] ∧ target = BitVec.ofNat 8 n := by
  unfold Mnemonic.withOperands at h
  split at h <;> cases h <;> cases ht <;> exact ⟨rfl, _, rfl, rfl⟩

theorem operandValue_line_lt {token : List Char} {n : Nat} (h : operandValue plen .line token = .ok n) : n < plen := by
  simp only [operandValue] at h
  split at h
  · cases h
  · split at h
    · next hlt => cases h; exact hlt
    · cases h

theorem parseLine_target_lt {target : Line} (h : parseLine plen line = .ok i) (ht : i.target? = some target) :
    ∃ n < plen, target = BitVec.ofNat 8 n := by
  obtain ⟨_, _, ⟨⟩⟩ | ⟨_, ⟨⟩, m, shape, hshape, vs, hvs, hi⟩ := parseLine_cases h
  obtain ⟨hshapes, n, rfl, rfl⟩ := withOperands_target hi ht
  obtain rfl : shape = [.line] := List.mem_singleton.1 (hshapes ▸ hshape)
  cases htokens : operandTokens line with
  | nil => simp [htokens] at hvs
  | cons token tokens =>
    rw [htokens] at hvs
    exact ⟨n, operandValue_line_lt (List.head_eq_of_cons_eq hvs), rfl⟩

theorem parseLine_wellFormedFor (h : parseLine plen line = .ok i) (hplen : plen ≤ Config.maxProgLen) :
    i.wellFormedFor (BitVec.ofNat 8 plen) = true := by
  cases ht : i.target? with
  | none => simp [Instr.wellFormedFor, ht]
  | some target =>
    obtain ⟨n, hn, rfl⟩ := parseLine_target_lt h ht
    rw [Machine.wellFormedFor_iff_of_target ht, BitVec.toNat_ofNat, BitVec.toNat_ofNat]
    rw [Config.maxProgLen] at hplen
    omega

theorem programWellFormed_iff : programWellFormed p = true ↔
    p.length ≤ Config.maxProgLen ∧ ∀ i ∈ p, i.wellFormedFor (BitVec.ofNat 8 p.length) = true := by
  rw [programWellFormed, Bool.and_eq_true, decide_eq_true_eq, List.all_eq_true]

theorem assemble_programWellFormed (h : assemble src = .ok p) : programWellFormed p = true := by
  have hlen := assemble_length h
  obtain ⟨hv, hp⟩ := assemble_ok_cases h
  have hcap := length_instructionLines_le hv
  rw [programWellFormed_iff, hlen]
  refine ⟨hcap, fun i hi => ?_⟩
  rw [hp, List.mem_filterMap] at hi
  obtain ⟨line, -, hline⟩ := hi
  exact parseLine_wellFormedFor (parseInstr_eq_some_iff.1 hline) hcap

end Sys2Proof
end

section
/-! SUPPORT. Valid programs run without a fault (R71, R222), and boot makes one of a well-formed program (R119, R255). -/

namespace Sys2Proof.Machine

variable {s t : State} {p : List Instr}

/-- A valid program is one of the program alone, not of S. -/
theorem State.ProgramValid.of_programSame (h : s.ProgramValid) (hprog : ProgramSame s t) : t.ProgramValid := by
  obtain ⟨himem, hplen⟩ := hprog
  intro l hl
  rw [himem, hplen]
  exact h l (hplen ▸ hl)

/-- The word that a step fetches is a word of the program, so the step of a valid program answers a next state. -/
theorem State.ProgramValid.step_answers_next (h : s.ProgramValid) : ∃ t, step s = .next t := by
  cases hstep : step s with
  | next t => exact ⟨t, rfl⟩
  | refused r => exact absurd hstep (step_not_refused s r)
  | fault f =>
    obtain ⟨hh, c, hd, -⟩ := step_fault_cases hstep
    obtain ⟨i, hi⟩ := h s.pc.toNat (halted_eq_false_iff.1 hh)
    cases hd.symm.trans hi

theorem State.ProgramValid.safeRun (h : s.ProgramValid) : SafeRun s := by
  intro k
  induction k generalizing s with
  | zero => exact ⟨s, core_run_zero s⟩
  | succ k ih =>
    obtain ⟨t, ht⟩ := h.step_answers_next
    rw [core_run_of_next k ht]
    exact ih (h.of_programSame (step_programSame ht))

theorem programValid_of_loadProgram (hp : programWellFormed p = true) (h : s.loadProgram (p.map encode) = some t) :
    t.ProgramValid := by
  obtain ⟨-, hwf⟩ := programWellFormed_iff.1 hp
  have hplen : t.plen.toNat = p.length := (loadProgram_plen h).trans (List.length_map encode)
  intro l hl
  rw [hplen] at hl
  have hword : (p.map encode)[l]? = some (encode p[l]) := by
    rw [List.getElem?_map, List.getElem?_eq_getElem hl, Option.map_some]
  have hplen' : t.plen = BitVec.ofNat 8 p.length := by rw [← hplen, BitVec.ofNat_toNat, BitVec.setWidth_eq]
  refine ⟨p[l], ?_⟩
  rw [loadProgram_read h hword, hplen']
  exact decode_encode (hwf p[l] (List.getElem_mem hl))

theorem boot_of_programWellFormed (s : State) (hp : programWellFormed p = true) :
    ∃ t, s.boot (p.map encode) = some t ∧ t.ProgramValid := by
  obtain ⟨hlen, -⟩ := programWellFormed_iff.1 hp
  obtain ⟨t, ht⟩ := loadProgram_of_length_le (s := s) ((List.length_map encode).trans_le hlen)
  exact ⟨t.hostReset, by rw [State.boot, ht, Option.map_some],
    (programValid_of_loadProgram hp ht).of_programSame ⟨rfl, rfl⟩⟩

end Sys2Proof.Machine
end

section
/-! SUPPORT. The statements about the memory and the loaded program settled. -/

namespace Sys2Proof.Machine

/-- Settles O51: a source that assembles is a well-formed program, whose encoded words decode to it; a step keeps the program,
so every word fetched in a run is one of them. -/
theorem assembledProgramsNeverFault : Obligations.AssembledProgramsNeverFault := by
  intro src p s hsrc
  obtain ⟨t, hboot, hvalid⟩ := boot_of_programWellFormed s (assemble_programWellFormed hsrc)
  exact ⟨t, hboot, hvalid, hvalid.safeRun⟩

/-- Settles O23: an execution writes memory only through the byte it stores, and makes nothing but memory of memory. -/
theorem onlyStoreWritesMemory : Obligations.OnlyStoreWritesMemory := by
  refine ⟨fun i s => ?_, fun _ _ => rfl, fun _ _ _ => rfl⟩
  obtain ⟨t, ht⟩ := exec_answers_next i s
  refine ⟨t, ht, exec_memSameExcept ht, ?_, exec_mem_of_ne_store ht, fun m => ?_⟩
  · rintro rx addr rfl
    exact exec_store_read ht
  · obtain ⟨u, hu⟩ := exec_answers_next i { s with mem := m }
    rw [exec_setMem ht hu] at hu
    exact ⟨_, hu, rfl, rfl, rfl, rfl, ⟨rfl, rfl⟩, ⟨rfl, rfl, rfl⟩, ⟨rfl, rfl⟩⟩

/-- Settles O24: an execution keeps the program, and each line that a load writes reads as its word. -/
theorem programsNeverModifyThemselves : Obligations.ProgramsNeverModifyThemselves :=
  ⟨fun _ _ => step_programSame, fun _ => ⟨rfl, rfl⟩, fun _ _ => ⟨rfl, rfl⟩, fun _ _ _ _ => loadProgram_read⟩

/-- Settles O41: a load writes its words line by line, and the word a step fetches is on a line below PLEN. -/
theorem loadProgramWritesImemAndPlen : Obligations.LoadProgramWritesImemAndPlen := by
  intro s words hlen
  obtain ⟨t, ht⟩ := loadProgram_of_length_le (s := s) hlen
  refine ⟨t, ht, loadProgram_plen ht, fun k w => loadProgram_read ht, fun k => loadProgram_read_above ht,
    loadProgram_hostRead ht, fun q hq => ?_⟩
  obtain ⟨hresult, hafter⟩ := stepRequest_setImem (s := t) (q := q) fun hh =>
    hq t.pc.toNat (loadProgram_plen ht ▸ halted_eq_false_iff.1 hh)
  have hread : (t.setImem q).after.hostRead = t.after.hostRead := by rw [hafter, setImem_hostRead]
  exact ⟨hresult, hread⟩

/-- Settles O52: a listed cell is not 0 and lies below every later one, so two canonical lists are read off alike. -/
theorem memoriesWithEqualCellsAreEqual : Obligations.MemoriesWithEqualCellsAreEqual := by
  intro m m' hm hm' hread
  refine cells_ext hm hm' fun a _ ha => ?_
  have hcell := hread (BitVec.ofNat 6 a)
  simpa only [Memory.read, BitVec.toNat_ofNat, Nat.mod_eq_of_lt (show a < 2 ^ 6 from ha)] using hcell

end Sys2Proof.Machine

namespace Sys2Proof

/-- Settles O9: the image is the words' bytes one after another, so each word is read off from its own two bytes. -/
theorem programImageRoundTrip : Obligations.ProgramImageRoundTrip :=
  fun ws => ⟨imageWords_programImage ws, length_programImage ws, fun _ _ => getElem?_programImage⟩

end Sys2Proof
end

section
/-! SUPPORT. The checks on a word alone as statements about its row, and words read back by their fields (R93, R98 to
R102). -/

namespace Sys2Proof

variable {w w' : Word} {plen : Byte} {i : Instr} {m : Mnemonic}

/-! ### The opcode (R91) -/

theorem mnemonicOf_eq_some_iff {op : BitVec 4} : mnemonicOf op = some m ↔ op = m.opcode := by
  refine ⟨?_, fun h => h ▸ mnemonicOf_opcode m⟩
  revert op
  cases m <;> decide

theorem mnemonicOf_eq_none_iff {op : BitVec 4} : mnemonicOf op = none ↔ op.toNat = 15 := by
  revert op
  decide

theorem opcode_injective {m m' : Mnemonic} (h : m.opcode = m'.opcode) : m = m' :=
  Option.some.inj ((mnemonicOf_opcode m).symm.trans ((congrArg mnemonicOf h).trans (mnemonicOf_opcode m')))

/-! ### The row of a word (R99, R100) -/

/-- The mask of a row is its opcode field and its reserved bits. -/
theorem encodedBy_iff : m.encodedBy w = true ↔ opOf w = m.opcode ∧ w &&& m.format.reservedMask = 0 := by
  rw [Mnemonic.encodedBy, decide_eq_true_iff]
  constructor
  · intro hmatch
    constructor
    · rw [← opOf_and_maskBits w m, hmatch, opOf_matchBits]
    · rw [← maskBits_and_reservedMask, ← BitVec.and_assoc, hmatch, matchBits_and_reservedMask]
  · rintro ⟨hop, hreserved⟩
    have htop : w &&& (0xF000 : Word) = (opOf w).setWidth 16 <<< 12 := by
      refine BitVec.eq_of_getLsbD_eq fun k hk => ?_
      interval_cases k <;> simp [opOf]
    rw [Mnemonic.maskBits, BitVec.and_or_distrib_left, hreserved, htop, hop, Mnemonic.matchBits]
    exact BitVec.or_zero

theorem mnemonic_withFields (m : Mnemonic) (w : Word) : (m.withFields w).mnemonic = m := by
  cases m <;> rfl

theorem decodeWord_eq_ok_iff : decodeWord w = .ok i ↔ i.mnemonic.encodedBy w = true ∧ i.mnemonic.withFields w = i := by
  constructor
  · intro h
    unfold decodeWord at h
    split at h
    · cases h
    · next m hm =>
      split at h
      · next hreserved =>
        cases h
        rw [mnemonic_withFields]
        exact ⟨encodedBy_iff.2 ⟨mnemonicOf_eq_some_iff.1 hm, hreserved⟩, rfl⟩
      · cases h
  · rintro ⟨hrow, hfields⟩
    rw [decodeWord_of_encodedBy hrow, hfields]

theorem decodeWord_eq_illegalOpcode_iff : decodeWord w = .error .illegalOpcode ↔ (opOf w).toNat = 15 := by
  rw [← mnemonicOf_eq_none_iff, decodeWord]
  split
  · simp_all
  · split <;> simp_all

theorem decodeWord_eq_reservedBits_iff :
    decodeWord w = .error .reservedBits ↔ ∃ m : Mnemonic, opOf w = m.opcode ∧ w &&& m.format.reservedMask ≠ 0 := by
  simp only [← mnemonicOf_eq_some_iff, decodeWord]
  split
  · simp_all
  · split <;> simp_all

theorem decode_of_decodeWord_error {c : Cause} (h : decodeWord w = .error c) : decode w plen = .error c := by
  simp [decode, h]

theorem decode_eq_ok_iff : decode w plen = .ok i ↔ decodeWord w = .ok i ∧ i.wellFormedFor plen = true :=
  ⟨Machine.decode_ok_inv, fun ⟨hw, hwf⟩ => by simp [decode, hw, hwf]⟩

theorem wellFormedFor_iff :
    i.wellFormedFor plen = true ↔ ∀ line, i.target? = some line → line.toNat < plen.toNat := by
  cases ht : i.target? with
  | none => simp [Instr.wellFormedFor, ht]
  | some line => simp [Machine.wellFormedFor_iff_of_target ht]

/-- The target of a J-format word is its `line8` (R97). -/
theorem target_withFields (m : Mnemonic) (w : Word) :
    (m.withFields w).target? = if m.format = .j then some (line8Of w) else none := by
  cases m <;> rfl

theorem decode_target {line : Line} (h : decode w plen = .ok i) (ht : i.target? = some line) : line = line8Of w := by
  obtain ⟨hw, -⟩ := decode_eq_ok_iff.1 h
  obtain ⟨-, hfields⟩ := decodeWord_eq_ok_iff.1 hw
  rw [← hfields, target_withFields] at ht
  split at ht
  · exact (Option.some.inj ht).symm
  · cases ht

theorem decode_eq_badTarget (hj : m.format = .j) (hrow : m.encodedBy w = true)
    (hplen : plen.toNat ≤ (line8Of w).toNat) : decode w plen = .error .badTarget := by
  have ht : (m.withFields w).target? = some (line8Of w) := by rw [target_withFields, if_pos hj]
  have hwf : ¬(m.withFields w).wellFormedFor plen = true := fun h =>
    absurd ((Machine.wellFormedFor_iff_of_target ht).1 h) hplen.not_gt
  simp [decode, decodeWord_of_encodedBy hrow, hwf]

/-! ### Slices (R93) -/

theorem toNat_slice (w : Word) (start len : Nat) :
    (w.extractLsb' start len).toNat = w.toNat / 2 ^ start % 2 ^ len := by
  rw [BitVec.extractLsb'_toNat, Nat.shiftRight_eq_div_pow]

theorem toNat_opOf (w : Word) : (opOf w).toNat = w.toNat / 2 ^ 12 := by
  have hw := w.isLt
  rw [opOf, toNat_slice]
  omega

/-- The slice that a format reserves: where it starts and its length (R98). -/
def Format.reservedSlice : Format → Nat × Nat
  | .ri => (8, 1)
  | .rm => (6, 3)
  | .rr => (0, 6)
  | .rrr => (0, 3)
  | .r => (0, 9)
  | .j => (8, 4)
  | .n => (0, 12)

theorem extractLsb'_reservedMask (f : Format) :
    f.reservedMask.extractLsb' f.reservedSlice.1 f.reservedSlice.2 = BitVec.allOnes _ := by
  cases f <;> rfl

/-- Reserved bits that are zero are a zero slice. -/
theorem reservedSlice_eq_zero {f : Format} (h : w &&& f.reservedMask = 0) :
    w.toNat / 2 ^ f.reservedSlice.1 % 2 ^ f.reservedSlice.2 = 0 := by
  have hslice : w.extractLsb' f.reservedSlice.1 f.reservedSlice.2 = 0 := by
    rw [← BitVec.and_allOnes (x := w.extractLsb' _ _), ← extractLsb'_reservedMask, ← BitVec.extractLsb'_and, h]
    simp
  rw [← toNat_slice, hslice]
  rfl

/-- The opcode, the reserved bits and the fields that its instruction names are all of a word. -/
theorem eq_of_withFields_eq (hw : m.encodedBy w = true) (hw' : m.encodedBy w' = true)
    (h : m.withFields w = m.withFields w') : w = w' := by
  obtain ⟨hop, hres⟩ := encodedBy_iff.1 hw
  obtain ⟨hop', hres'⟩ := encodedBy_iff.1 hw'
  have htop := congrArg BitVec.toNat (hop.trans hop'.symm)
  rw [toNat_opOf, toNat_opOf] at htop
  have hslice := reservedSlice_eq_zero hres
  have hslice' := reservedSlice_eq_zero hres'
  refine BitVec.eq_of_toNat_eq ?_
  cases m <;>
    simp only [Mnemonic.withFields, Instr.load.injEq, Instr.store.injEq, Instr.mov.injEq, Instr.add.injEq,
      Instr.sub.injEq, Instr.mul.injEq, Instr.inc.injEq, Instr.dec.injEq, Instr.cmp.injEq, Instr.jmp.injEq,
      Instr.jz.injEq, Instr.jnz.injEq, Instr.jc.injEq, Instr.jn.injEq, Mnemonic.format, Format.reservedSlice,
      raOf, rbOf, rcOf, imm8Of, addr6Of, line8Of, ← BitVec.toNat_inj, toNat_slice] at h hslice hslice' <;>
    omega

theorem encode_withFields (h : m.encodedBy w = true) : encode (m.withFields w) = w := by
  have hmnemonic := mnemonic_withFields m w
  have hrow := encodedBy_encode (m.withFields w)
  have hfields := withFields_encode (m.withFields w)
  rw [hmnemonic] at hrow hfields
  exact eq_of_withFields_eq hrow h hfields

theorem encode_of_decodeWord (h : decodeWord w = .ok i) : encode i = w := by
  obtain ⟨hrow, hfields⟩ := decodeWord_eq_ok_iff.1 h
  rw [← hfields, encode_withFields hrow]

end Sys2Proof

namespace Sys2Proof.Machine

theorem stepRequest_of_error {s : State} {c : Cause} (hpc : s.pc.toNat < s.plen.toNat)
    (hd : decode s.fetchWord s.plen = .error c) : s.stepRequest = (s, .error c) := by
  have hh := halted_eq_false_iff.2 hpc
  rw [State.stepRequest, after_of_fault (step_of_error hh hd), result_of_error hh hd]

end Sys2Proof.Machine
end

section
/-! SUPPORT. The statements about the encoding settled. -/

namespace Sys2Proof

/-- Settles O1: the encoded word matches the instruction's row, and each operand reads back from its field. -/
theorem encodeThenDecode : Obligations.EncodeThenDecode :=
  fun _ _ => decode_encode

/-- Settles O2: a legal word is the encoding of what it decodes to, an instruction is what its encoding decodes to, and
each row fixes its own opcode. -/
theorem everyWordIsOneInstructionOrIllegal : Obligations.EveryWordIsOneInstructionOrIllegal := by
  refine ⟨fun w plen => ?_, fun w m m' hm hm' => ?_⟩
  · cases hd : decode w plen with
    | ok i =>
      obtain ⟨hw, hwf⟩ := decode_eq_ok_iff.1 hd
      refine .inl ⟨i, rfl, hwf, encode_of_decodeWord hw, ?_⟩
      rintro j rfl
      exact Except.ok.inj ((decodeWord_encode j).symm.trans hw)
    | error c =>
      refine .inr ⟨c, rfl, ?_⟩
      rintro j rfl
      rw [← Bool.not_eq_true]
      intro hwf
      cases hd.symm.trans (decode_encode hwf)
  · obtain ⟨hop, -⟩ := encodedBy_iff.1 hm
    obtain ⟨hop', -⟩ := encodedBy_iff.1 hm'
    exact opcode_injective (hop.symm.trans hop')

/-- Settles O3: the checks on the word are the opcode and the reserved bits, which are the two parts of a row's mask. -/
theorem wordsMatchTheRowTheyDecodeTo : Obligations.WordsMatchTheRowTheyDecodeTo := by
  refine ⟨rfl, fun m w => ⟨fun h => ?_, ?_⟩, fun w plen i => ?_⟩
  · exact ⟨_, decodeWord_of_encodedBy h, mnemonic_withFields m w⟩
  · rintro ⟨i, hw, rfl⟩
    exact (decodeWord_eq_ok_iff.1 hw).1
  · rw [decode_eq_ok_iff, wellFormedFor_iff]

end Sys2Proof

namespace Sys2Proof.Machine

/-- Settles O4: the opcode check comes first, the reserved bits second, and a step that faults leaves the state. -/
theorem illegalWordsRaiseTheirCause : Obligations.IllegalWordsRaiseTheirCause :=
  ⟨fun _ => decodeWord_eq_illegalOpcode_iff, fun _ => decodeWord_eq_reservedBits_iff,
    fun _ _ hpc hw => stepRequest_of_error hpc (decode_of_decodeWord_error hw)⟩

/-- Settles O5: decode checks the target of every J-format word, and the flags are no part of what it reads. -/
theorem badTargetIsIllegalWhetherTakenOrNot : Obligations.BadTargetIsIllegalWhetherTakenOrNot := by
  rintro w line m hj hrow rfl
  refine ⟨fun plen => decode_eq_badTarget hj hrow, ?_⟩
  rintro s f rfl hpc hplen
  exact stepRequest_of_error (s := s.setFlags f) hpc (decode_eq_badTarget hj hrow hplen)

end Sys2Proof.Machine

namespace Sys2Proof

/-- Settles O7: a slice is a quotient's remainder, and the only target that decode reads is `line8`. -/
theorem fieldsAreUnsignedSlices : Obligations.FieldsAreUnsignedSlices := by
  intro w
  refine ⟨toNat_opOf w, toNat_slice w 9 3, toNat_slice w 6 3, toNat_slice w 3 3, ?_, ?_, ?_,
    fun plen i line hd ht => ?_⟩
  · rw [imm8Of, toNat_slice]; simp
  · rw [addr6Of, toNat_slice]; simp
  · rw [line8Of, toNat_slice]; simp
  · exact ⟨decode_target hd ht, wellFormedFor_iff.1 (decode_eq_ok_iff.1 hd).2 line ht⟩

/-- Settles O8: each of the eight words is decoded. -/
theorem sampleWordsDecode : Obligations.SampleWordsDecode :=
  ⟨rfl, rfl, rfl, rfl, rfl, rfl, rfl, rfl⟩

end Sys2Proof
end

section
/-! SUPPORT. What a token reads as: an opcode, a register, a decimal (R112 to R116). -/

namespace Sys2Proof

variable {plen : Nat} {token : List Char}

/-! ### Opcodes (R112) -/

theorem parseMnemonic_eq_some_iff {m : Mnemonic} : parseMnemonic token = some m ↔ token.map Char.toUpper = m.name := by
  constructor
  · intro h
    have hname := List.find?_some h
    exact (beq_iff_eq.1 hname).symm
  · intro h
    rw [parseMnemonic, h]
    cases m <;> rfl

theorem parseMnemonic_eq_none (h : ∀ m : Mnemonic, token.map Char.toUpper ≠ m.name) : parseMnemonic token = none :=
  Option.eq_none_iff_forall_ne_some.2 fun m hm => h m (parseMnemonic_eq_some_iff.1 hm)

/-- An opcode is read through its upper-case letters alone. -/
theorem parseMnemonic_congr {token' : List Char} (h : token'.map Char.toUpper = token.map Char.toUpper) :
    parseMnemonic token' = parseMnemonic token := by
  rw [parseMnemonic, h, parseMnemonic]

theorem parseMnemonic_name (m : Mnemonic) : parseMnemonic m.name = some m := by
  refine parseMnemonic_eq_some_iff.2 ?_
  cases m <;> rfl

/-! ### Registers (R113) -/

theorem parseReg_eq_some_iff {r : Reg} : parseReg token = some r ↔ token = ['R', Char.ofNat (48 + r.toNat)] := by
  constructor
  · intro h
    unfold parseReg at h
    split at h <;> cases h <;> rfl
  · rintro rfl
    revert r
    decide

theorem operandValue_reg_eq_ok_iff {r : Reg} :
    operandValue plen .reg token = .ok r.toNat ↔ parseReg token = some r := by
  cases h : parseReg token <;> simp [operandValue, h, BitVec.toNat_inj]

theorem operandValue_reg_eq_error (h : ∀ r : Reg, parseReg token ≠ some r) :
    operandValue plen .reg token = .error .operandRange := by
  rw [operandValue, Option.eq_none_iff_forall_ne_some.2 h]

theorem regName_eq (r : Reg) : regName r = ['R', Char.ofNat (48 + r.toNat)] := by
  revert r
  decide

@[simp] theorem operandValue_regName (r : Reg) : operandValue plen .reg (regName r) = .ok r.toNat :=
  operandValue_reg_eq_ok_iff.2 (parseReg_eq_some_iff.2 (regName_eq r))

/-! ### Decimals (R114 to R116) -/

theorem digitValue_of_isDigit {c : Char} (h : c.isDigit = true) : digitValue c = some (c.toNat - '0'.toNat) :=
  if_pos (by simpa [Char.isDigit, UInt32.le_iff_toNat_le] using h)

theorem digitValue_eq_none {c : Char} (h : ¬('0' ≤ c ∧ c ≤ '9')) : digitValue c = none :=
  if_neg h

/-- Digits are read as the library reads them. -/
theorem parseDigits_of_digits {cs : List Char} (h : ∀ c ∈ cs, c.isDigit = true) (acc : Nat) :
    parseDigits acc cs = some (Nat.ofDigitChars 10 cs acc) := by
  induction cs generalizing acc with
  | nil => rfl
  | cons c cs ih =>
    obtain ⟨hc, hcs⟩ := List.forall_mem_cons.1 h
    rw [parseDigits, digitValue_of_isDigit hc]
    dsimp only
    rw [ih hcs, Nat.ofDigitChars_cons, Nat.mul_comm]

theorem parseDigits_eq_none {cs : List Char} {c : Char} (hc : c ∈ cs) (h : ¬('0' ≤ c ∧ c ≤ '9')) (acc : Nat) :
    parseDigits acc cs = none := by
  induction cs generalizing acc with
  | nil => cases hc
  | cons d cs ih =>
    rw [parseDigits]
    rcases List.mem_cons.1 hc with rfl | hmem
    · rw [digitValue_eq_none h]
    · cases digitValue d with
      | none => rfl
      | some v => exact ih hmem _

theorem isDigit_of_mem_decimal {n : Nat} {c : Char} (h : c ∈ decimal n) : c.isDigit = true :=
  Nat.isDigit_of_mem_toDigits (by omega) (by omega) h

theorem decimal_ne_nil (n : Nat) : decimal n ≠ [] :=
  Nat.toDigits_ne_nil

/-- Leading zeros add nothing to the value of a decimal. -/
theorem parseDecimal_zeros_decimal (zeros n : Nat) : parseDecimal (List.replicate zeros '0' ++ decimal n) = some n := by
  have hdigits : ∀ c ∈ List.replicate zeros '0' ++ decimal n, c.isDigit = true := by
    intro c hc
    rcases List.mem_append.1 hc with hzero | hdec
    · rw [List.eq_of_mem_replicate hzero]; rfl
    · exact isDigit_of_mem_decimal hdec
  rw [parseDecimal, if_neg (List.append_ne_nil_of_right_ne_nil _ (decimal_ne_nil n)), parseDigits_of_digits hdigits,
    Nat.ofDigitChars_append, Nat.ofDigitChars_replicate_zero, Nat.mul_zero, decimal,
    Nat.ofDigitChars_toDigits (by omega) (by omega)]

theorem parseDecimal_decimal (n : Nat) : parseDecimal (decimal n) = some n :=
  parseDecimal_zeros_decimal 0 n

theorem parseDecimal_eq_none {c : Char} (hc : c ∈ token) (h : ¬('0' ≤ c ∧ c ≤ '9')) : parseDecimal token = none := by
  rw [parseDecimal, if_neg (List.ne_nil_of_mem hc), parseDigits_eq_none hc h]

section Value

variable {n : Nat} (h : parseDecimal token = some n)
include h

theorem operandValue_val_eq : operandValue plen .val token = if n < 256 then .ok n else .error .operandRange := by
  simp [operandValue, parseBelow, h]

theorem operandValue_addr_eq : operandValue plen .addr token = if n < 64 then .ok n else .error .operandRange := by
  simp [operandValue, parseBelow, h]

theorem operandValue_line_eq : operandValue plen .line token = if n < plen then .ok n else .error .targetBounds := by
  simp [operandValue, h]

end Value

/-- An operand that is no register and no decimal is out of range or kind. -/
theorem operandValue_eq_error {kind : OperandKind} (hkind : kind ≠ .reg) (h : parseDecimal token = none) :
    operandValue plen kind token = .error .operandRange := by
  cases kind with
  | reg => exact absurd rfl hkind
  | val => simp [operandValue, parseBelow, h]
  | addr => simp [operandValue, parseBelow, h]
  | line => simp [operandValue, h]

@[simp] theorem operandValue_decimal_byte (v : Byte) : operandValue plen .val (decimal v.toNat) = .ok v.toNat := by
  rw [operandValue_val_eq (parseDecimal_decimal _), if_pos v.isLt]

@[simp] theorem operandValue_decimal_addr (a : Addr) : operandValue plen .addr (decimal a.toNat) = .ok a.toNat := by
  rw [operandValue_addr_eq (parseDecimal_decimal _), if_pos a.isLt]

theorem operandValue_decimal_line {n : Nat} (h : n < plen) : operandValue plen .line (decimal n) = .ok n := by
  rw [operandValue_line_eq (parseDecimal_decimal _), if_pos h]

end Sys2Proof
end

section
/-! SUPPORT. What a line parses to, said of its opcode, its shape and its operands (R117, R119). -/

namespace Sys2Proof

variable {plen : Nat} {line : List Char} {m : Mnemonic} {shape : List OperandKind}

theorem collectOperands_map_ok (vs : List Nat) : collectOperands (vs.map .ok) = ([], vs) := by
  induction vs with
  | nil => rfl
  | cons v vs ih => rw [List.map_cons, collectOperands, ih]

theorem parseLine_of_unknownOpcode (h : parseMnemonic (opcodeToken line) = none) :
    ∃ errors, parseLine plen line = .error errors ∧ .unknownOpcode ∈ errors := by
  unfold parseLine
  simp only [h]
  exact ⟨_, rfl, List.mem_cons_self⟩

-- The line has an opcode, and as many operands as one of the opcode's shapes.
section Shape

variable (hm : parseMnemonic (opcodeToken line) = some m) (hshape : shape ∈ m.shapes)
  (hlen : shape.length = (operandTokens line).length)
include hm hshape hlen

theorem parseLine_of_values {vs : List Nat} {i : Instr}
    (hvs : List.zipWith (operandValue plen) shape (operandTokens line) = vs.map .ok) (hi : m.withOperands vs = some i) :
    parseLine plen line = .ok i := by
  unfold parseLine
  simp only [hm, m.find_shape hshape hlen, hvs, collectOperands_map_ok, hi]

/-- An error of an operand is an error of its line. -/
theorem parseLine_of_operand_error {k : Nat} {kind : OperandKind} {token : List Char} {e : ErrorKind}
    (hkind : shape[k]? = some kind) (htoken : (operandTokens line)[k]? = some token)
    (he : operandValue plen kind token = .error e) : ∃ errors, parseLine plen line = .error errors ∧ e ∈ errors := by
  have hzip : (List.zipWith (operandValue plen) shape (operandTokens line))[k]? = some (.error e) := by
    rw [List.getElem?_zipWith, hkind, htoken]
    exact congrArg some he
  have hmem : e ∈ (collectOperands (List.zipWith (operandValue plen) shape (operandTokens line))).1 :=
    (mem_collectOperands_errors _ e).2 (List.mem_of_getElem? hzip)
  unfold parseLine
  simp only [hm, m.find_shape hshape hlen]
  split
  · next hcollect => rw [hcollect] at hmem; cases hmem
  · next hcollect => rw [hcollect] at hmem; exact ⟨_, rfl, List.mem_dedup.2 hmem⟩

end Shape

/-! ### Validation without errors (R119) -/

theorem validate_eq_nil {src : List Char} (hcap : (instructionLines src).length ≤ Config.maxProgLen)
    (hparse : ∀ line ∈ instructionLines src, ∃ i, parseLine (instructionLines src).length line = .ok i) :
    validate src = [] := by
  rw [validate, List.flatMap_eq_nil_iff]
  rintro ⟨line, k⟩ hmem
  have hline := List.mem_zipIdx_iff_getElem?.1 hmem
  obtain ⟨hk, -⟩ := List.getElem?_eq_some_iff.1 hline
  obtain ⟨i, hi⟩ := hparse line (List.mem_of_getElem? hline)
  have hcapk : ¬ Config.maxProgLen ≤ k := by omega
  simp [lineErrors, parseErrors, hi, hcapk]

theorem parseInstr_eq (plen : Nat) : parseInstr plen = Except.toOption ∘ parseLine plen := by
  funext line
  rw [parseInstr, Function.comp]
  cases parseLine plen line <;> rfl

/-- A source assembles to the instructions that its lines parse to. -/
theorem assemble_eq_ok {src : List Char} {p : List Instr} (hcap : p.length ≤ Config.maxProgLen)
    (hlines : (instructionLines src).map (parseLine p.length) = p.map .ok) : assemble src = .ok p := by
  have hlen : (instructionLines src).length = p.length := by simpa using congrArg List.length hlines
  have hparse : ∀ line ∈ instructionLines src, ∃ i, parseLine (instructionLines src).length line = .ok i := by
    intro line hline
    have hmem : parseLine p.length line ∈ p.map Except.ok := hlines ▸ List.mem_map_of_mem hline
    obtain ⟨i, -, hi⟩ := List.mem_map.1 hmem
    exact ⟨i, by rw [hlen, ← hi]⟩
  have hvalid : validate src = [] := validate_eq_nil (hlen.trans_le hcap) hparse
  have hinstrs : (instructionLines src).filterMap (parseInstr p.length) = p := by
    rw [parseInstr_eq, ← List.filterMap_map, hlines, List.filterMap_map]
    exact List.filterMap_some
  rw [assemble, hvalid, hlen, hinstrs]

end Sys2Proof
end

section
/-! SUPPORT. The canonical spelling read back: its one line, its opcode and its operands (R110, R111, R121). -/

namespace Sys2Proof

variable {a b t : List Char} {c : Char}

/-! ### Characters and tokens of the canonical spelling -/

/-- A character that starts a comment (R110). -/
def startsComment (c : Char) : Bool := c == ';' || c == '#'

theorem stripComment_eq (cs : List Char) : stripComment cs = cs.takeWhile (fun c => !startsComment c) := rfl

/-- A character that stands for itself: no white space, no comma, and no start of a comment (R110, R111). -/
def isPlain (c : Char) : Bool := !isSpace c && !(c == ',') && !startsComment c

/-- A non-empty run of plain characters. -/
def IsToken (t : List Char) : Prop := t ≠ [] ∧ ∀ c ∈ t, isPlain c = true

theorem isPlain_iff : isPlain c = true ↔ isSpace c = false ∧ (c == ',') = false ∧ startsComment c = false := by
  simp [isPlain, and_assoc]

theorem isPlain_of_isDigit (h : c.isDigit = true) : isPlain c = true := by
  by_contra hplain
  simp only [isPlain, isSpace, Char.isWhitespace, startsComment, Bool.and_eq_true, Bool.not_eq_true',
    Bool.or_eq_false_iff, beq_eq_false_iff_ne, decide_eq_false_iff_not, not_and_or, not_not, ne_eq] at hplain
  rcases hplain with (((((rfl | rfl) | rfl) | rfl) | rfl) | rfl | rfl) <;> cases h

theorem isToken_name (m : Mnemonic) : IsToken m.name := by
  cases m <;> exact ⟨List.cons_ne_nil _ _, List.all_eq_true.1 rfl⟩

theorem isToken_decimal (n : Nat) : IsToken (decimal n) :=
  ⟨decimal_ne_nil n, fun _ hc => isPlain_of_isDigit (isDigit_of_mem_decimal hc)⟩

theorem isToken_regName (r : Reg) : IsToken (regName r) :=
  ⟨List.cons_ne_nil _ _, List.forall_mem_cons.2 ⟨rfl, (isToken_decimal _).2⟩⟩

theorem isToken_operandNames (i : Instr) : ∀ t ∈ i.operandNames, IsToken t := by
  cases i <;> simp [Instr.operandNames, isToken_regName, isToken_decimal]

theorem IsToken.not_isSpace (h : IsToken t) : ∀ c ∈ t, isSpace c = false :=
  fun c hc => (isPlain_iff.1 (h.2 c hc)).1

theorem IsToken.ne_comma (h : IsToken t) : ∀ c ∈ t, (c == ',') = false :=
  fun c hc => (isPlain_iff.1 (h.2 c hc)).2.1

/-! ### White space at the ends (R111) -/

/-- No white space at either end. -/
structure IsTrimmed (cs : List Char) : Prop where
  head : ∀ c ∈ cs.head?, isSpace c = false
  last : ∀ c ∈ cs.getLast?, isSpace c = false

theorem dropWhile_eq_self {p : Char → Bool} (h : ∀ c ∈ a.head?, p c = false) : a.dropWhile p = a := by
  cases a with
  | nil => rfl
  | cons c a => exact List.dropWhile_cons_of_neg (by simp [h c rfl])

theorem IsTrimmed.trim_eq (h : IsTrimmed a) : trim a = a := by
  rw [trim, dropWhile_eq_self h.head, dropWhile_eq_self (List.head?_reverse ▸ h.last), List.reverse_reverse]

theorem IsToken.isTrimmed (h : IsToken t) : IsTrimmed t where
  head c hc := h.not_isSpace c (List.mem_of_mem_head? hc)
  last c hc := h.not_isSpace c (List.mem_of_mem_getLast? hc)

/-- The ends of a text are those of its first and last parts. -/
theorem IsTrimmed.append (ha : IsTrimmed a) (hb : IsTrimmed b) (hne : a ≠ []) (hne' : b ≠ []) (mid : List Char) :
    IsTrimmed (a ++ mid ++ b) where
  head := by
    rw [List.append_assoc, List.head?_append_of_ne_nil a hne]
    exact ha.head
  last := by
    rw [List.getLast?_append_of_ne_nil _ hne']
    exact hb.last

theorem trim_blank_cons (cs : List Char) : trim (' ' :: cs) = trim cs := rfl

/-! ### Cutting (R110, R111) -/

theorem splitAtEach_of_uncut {cut : Char → Bool} (h : ∀ c ∈ a, cut c = false) : splitAtEach cut a = [a] := by
  induction a with
  | nil => rfl
  | cons c a ih =>
    obtain ⟨hc, ha⟩ := List.forall_mem_cons.1 h
    simp [splitAtEach, hc, ih ha]

theorem splitAtEach_append_cons {cut : Char → Bool} (h : ∀ c ∈ a, cut c = false) (hc : cut c = true)
    (rest : List Char) : splitAtEach cut (a ++ c :: rest) = a :: splitAtEach cut rest := by
  induction a with
  | nil => simp [splitAtEach, hc]
  | cons d a ih =>
    obtain ⟨hd, ha⟩ := List.forall_mem_cons.1 h
    simp [splitAtEach, hd, ih ha]

/-! ### Joined operands (R121) -/

theorem joinOperands_cons_cons (t u : List Char) (ts : List (List Char)) :
    joinOperands (t :: u :: ts) = t ++ ',' :: ' ' :: joinOperands (u :: ts) := by
  simp [joinOperands]

theorem mem_joinOperands {ts : List (List Char)} (h : c ∈ joinOperands ts) : (∃ t ∈ ts, c ∈ t) ∨ c = ',' ∨ c = ' ' := by
  induction ts with
  | nil => cases h
  | cons t ts ih =>
    cases ts with
    | nil => exact .inl ⟨t, List.mem_cons_self, h⟩
    | cons u ts =>
      rw [joinOperands_cons_cons, List.mem_append, List.mem_cons, List.mem_cons] at h
      rcases h with ht | hcomma | hblank | hrest
      · exact .inl ⟨t, List.mem_cons_self, ht⟩
      · exact .inr (.inl hcomma)
      · exact .inr (.inr hblank)
      · exact (ih hrest).imp_left fun ⟨v, hv, hc⟩ => ⟨v, List.mem_cons_of_mem t hv, hc⟩

theorem joinOperands_trimmed {ts : List (List Char)} (hts : ∀ t ∈ ts, IsToken t) (hne : ts ≠ []) :
    joinOperands ts ≠ [] ∧ IsTrimmed (joinOperands ts) := by
  induction ts with
  | nil => exact absurd rfl hne
  | cons t ts ih =>
    obtain ⟨ht, hts⟩ := List.forall_mem_cons.1 hts
    cases ts with
    | nil => exact ⟨ht.1, ht.isTrimmed⟩
    | cons u ts =>
      obtain ⟨hrest, hrestTrimmed⟩ := ih hts (List.cons_ne_nil u ts)
      exact ⟨List.append_ne_nil_of_right_ne_nil _ hrest, ht.isTrimmed.append hrestTrimmed ht.1 hrest [',', ' ']⟩

/-- The pieces between the commas of joined operands: each operand, all but the first after a blank. -/
theorem splitAtEach_joinOperands {ts : List (List Char)} (hts : ∀ u ∈ t :: ts, IsToken u) :
    splitAtEach (· == ',') (joinOperands (t :: ts)) = t :: ts.map (' ' :: ·) := by
  induction ts generalizing t with
  | nil => exact splitAtEach_of_uncut (hts t List.mem_cons_self).ne_comma
  | cons u ts ih =>
    obtain ⟨ht, hrest⟩ := List.forall_mem_cons.1 hts
    rw [joinOperands_cons_cons, splitAtEach_append_cons ht.ne_comma rfl]
    simp [splitAtEach, ih hrest]

theorem map_trim_splitAtEach_joinOperands {ts : List (List Char)} (hts : ∀ t ∈ ts, IsToken t) (hne : ts ≠ []) :
    (splitAtEach (· == ',') (joinOperands ts)).map trim = ts := by
  have htrim : ∀ t ∈ ts, trim t = t := fun t ht => (hts t ht).isTrimmed.trim_eq
  obtain ⟨t, ts, rfl⟩ := List.exists_cons_of_ne_nil hne
  obtain ⟨ht, hts'⟩ := List.forall_mem_cons.1 htrim
  have hmap : ts.map (trim ∘ (' ' :: ·)) = ts.map id :=
    List.map_congr_left fun u hu => (trim_blank_cons u).trans (hts' u hu)
  rw [splitAtEach_joinOperands hts, List.map_cons, List.map_map, ht, hmap, List.map_id]

/-! ### The tokens of a spelled line (R111, R121) -/

theorem takeWhile_token {rest : List Char} (ht : IsToken t) :
    (t ++ ' ' :: rest).takeWhile (fun c => !isSpace c) = t := by
  rw [List.takeWhile_append_of_pos fun c hc => by simp [ht.not_isSpace c hc]]
  exact List.append_nil t

theorem dropWhile_token {rest : List Char} (ht : IsToken t) :
    (t ++ ' ' :: rest).dropWhile (fun c => !isSpace c) = ' ' :: rest := by
  rw [List.dropWhile_append_of_pos fun c hc => by simp [ht.not_isSpace c hc]]
  rfl

-- An opcode token, and operands that are tokens.
section Spelled

variable {ops : List (List Char)} (ht : IsToken t)
include ht

theorem opcodeToken_of_token : opcodeToken t = t := by
  rw [opcodeToken, ht.isTrimmed.trim_eq]
  exact List.takeWhile_eq_self_iff.2 fun c hc => by simp [ht.not_isSpace c hc]

theorem operandTokens_of_token : operandTokens t = [] := by
  have hrest : t.dropWhile (fun c => !isSpace c) = [] :=
    List.dropWhile_eq_nil_iff.2 fun c hc => by simp [ht.not_isSpace c hc]
  rw [operandTokens, ht.isTrimmed.trim_eq, hrest]
  rfl

variable (hops : ∀ u ∈ ops, IsToken u) (hne : ops ≠ [])
include hops hne

theorem trim_spelled : trim (t ++ [' '] ++ joinOperands ops) = t ++ ' ' :: joinOperands ops := by
  obtain ⟨hjoin, htrimmed⟩ := joinOperands_trimmed hops hne
  rw [(ht.isTrimmed.append htrimmed ht.1 hjoin [' ']).trim_eq, List.append_assoc, List.singleton_append]

theorem opcodeToken_spelled : opcodeToken (t ++ [' '] ++ joinOperands ops) = t := by
  rw [opcodeToken, trim_spelled ht hops hne, takeWhile_token ht]

theorem operandTokens_spelled : operandTokens (t ++ [' '] ++ joinOperands ops) = ops := by
  obtain ⟨hjoin, htrimmed⟩ := joinOperands_trimmed hops hne
  rw [operandTokens, trim_spelled ht hops hne, dropWhile_token ht, trim_blank_cons, htrimmed.trim_eq]
  exact (if_neg hjoin).trans (map_trim_splitAtEach_joinOperands hops hne)

end Spelled

theorem disassemble_cases (i : Instr) :
    (i.operandNames = [] ∧ disassemble i = i.mnemonic.name) ∨
    (i.operandNames ≠ [] ∧ disassemble i = i.mnemonic.name ++ [' '] ++ joinOperands i.operandNames) := by
  cases i <;> simp [Instr.operandNames, disassemble]

theorem opcodeToken_disassemble (i : Instr) : opcodeToken (disassemble i) = i.mnemonic.name := by
  have hname := isToken_name i.mnemonic
  rcases disassemble_cases i with ⟨-, hi⟩ | ⟨hne, hi⟩
  · rw [hi, opcodeToken_of_token hname]
  · rw [hi, opcodeToken_spelled hname (isToken_operandNames i) hne]

theorem operandTokens_disassemble (i : Instr) : operandTokens (disassemble i) = i.operandNames := by
  have hname := isToken_name i.mnemonic
  rcases disassemble_cases i with ⟨hnil, hi⟩ | ⟨hne, hi⟩
  · rw [hi, operandTokens_of_token hname, hnil]
  · rw [hi, operandTokens_spelled hname (isToken_operandNames i) hne]

/-- Every character of a spelled instruction is plain, a comma or a blank. -/
theorem mem_disassemble {i : Instr} (h : c ∈ disassemble i) : isPlain c = true ∨ c = ',' ∨ c = ' ' := by
  have hname := (isToken_name i.mnemonic).2
  rcases disassemble_cases i with ⟨-, hi⟩ | ⟨-, hi⟩
  · exact .inl (hname c (hi ▸ h))
  · rw [hi, List.mem_append, List.mem_append, List.mem_singleton] at h
    rcases h with (hc | hblank) | hc
    · exact .inl (hname c hc)
    · exact .inr (.inr hblank)
    · exact (mem_joinOperands hc).imp_left fun ⟨t, ht, hct⟩ => (isToken_operandNames i t ht).2 c hct

/-! ### The lines of a listing (R110, R121) -/

theorem instructionLines_cons (hnl : ∀ c ∈ a, (c == '\n') = false) (hcomment : ∀ c ∈ a, startsComment c = false)
    (hword : ∃ c ∈ a, isSpace c = false) (rest : List Char) :
    instructionLines (a ++ '\n' :: rest) = a :: instructionLines rest := by
  have hstrip : stripComment a = a := by
    rw [stripComment_eq]
    exact List.takeWhile_eq_self_iff.2 fun c hc => by simp [hcomment c hc]
  have hany : a.any (fun c => !isSpace c) = true := by simpa using hword
  rw [instructionLines, splitAtEach_append_cons hnl rfl, List.map_cons, hstrip]
  exact List.filter_cons_of_pos hany

theorem instructionLines_disassemble (i : Instr) (rest : List Char) :
    instructionLines (disassemble i ++ '\n' :: rest) = disassemble i :: instructionLines rest := by
  refine instructionLines_cons (fun c hc => ?_) (fun c hc => ?_) ?_ rest
  · rcases mem_disassemble hc with hplain | rfl | rfl
    · rw [beq_eq_false_iff_ne]
      rintro rfl
      cases hplain
    · rfl
    · rfl
  · rcases mem_disassemble hc with hplain | rfl | rfl
    · exact (isPlain_iff.1 hplain).2.2
    · rfl
    · rfl
  · have hname := isToken_name i.mnemonic
    obtain ⟨c, hc⟩ := List.exists_mem_of_ne_nil _ hname.1
    refine ⟨c, ?_, hname.not_isSpace c hc⟩
    rcases disassemble_cases i with ⟨-, hi⟩ | ⟨-, hi⟩ <;> simp [hi, hc]

theorem instructionLines_disassembleProgram (p : List Instr) :
    instructionLines (disassembleProgram p) = p.map disassemble := by
  induction p with
  | nil => rfl
  | cons i p ih =>
    have hcons : disassembleProgram (i :: p) = disassemble i ++ '\n' :: disassembleProgram p := by
      simp [disassembleProgram]
    rw [hcons, instructionLines_disassemble, ih, List.map_cons]

/-! ### A spelled instruction parses to itself (R117, R121) -/

/-- The shape of the canonical spelling: the first of the opcode's shapes. -/
def Instr.operandKinds (i : Instr) : List OperandKind := i.mnemonic.shapes.headD []

/-- The numbers that the operands of the canonical spelling stand for. -/
def Instr.operandNumbers : Instr → List Nat
  | .load rx val => [rx.toNat, val.toNat]
  | .store rx addr => [rx.toNat, addr.toNat]
  | .mov rd rs => [rd.toNat, rs.toNat]
  | .add rd rs1 rs2 => [rd.toNat, rs1.toNat, rs2.toNat]
  | .sub rd rs1 rs2 => [rd.toNat, rs1.toNat, rs2.toNat]
  | .mul rd rs1 rs2 => [rd.toNat, rs1.toNat, rs2.toNat]
  | .inc rx => [rx.toNat]
  | .dec rx => [rx.toNat]
  | .cmp rx ry => [rx.toNat, ry.toNat]
  | .jmp line => [line.toNat]
  | .jz line => [line.toNat]
  | .jnz line => [line.toNat]
  | .jc line => [line.toNat]
  | .jn line => [line.toNat]
  | .nop => []

theorem operandKinds_mem_shapes (i : Instr) : i.operandKinds ∈ i.mnemonic.shapes := by
  cases i <;> exact List.mem_cons_self

theorem operandKinds_length (i : Instr) : i.operandKinds.length = i.operandNames.length := by
  cases i <;> rfl

theorem withOperands_operandNumbers (i : Instr) : i.mnemonic.withOperands i.operandNumbers = some i := by
  cases i <;> simp [Instr.mnemonic, Instr.operandNumbers, Mnemonic.withOperands]

theorem operandValues_operandNames {plen : Nat} {i : Instr}
    (htarget : ∀ target, i.target? = some target → target.toNat < plen) :
    List.zipWith (operandValue plen) i.operandKinds i.operandNames = i.operandNumbers.map .ok := by
  cases i <;> simp_all [Instr.operandKinds, Instr.mnemonic, Mnemonic.shapes, Instr.operandNames, Instr.operandNumbers,
    Instr.target?, operandValue_decimal_line]

theorem parseLine_disassemble {plen : Nat} {i : Instr}
    (htarget : ∀ target, i.target? = some target → target.toNat < plen) :
    parseLine plen (disassemble i) = .ok i := by
  have hops := operandTokens_disassemble i
  refine parseLine_of_values (m := i.mnemonic) ?_ (operandKinds_mem_shapes i) ?_ ?_ (withOperands_operandNumbers i)
  · rw [opcodeToken_disassemble, parseMnemonic_name]
  · rw [hops, operandKinds_length]
  · rw [hops, operandValues_operandNames htarget]

/-- A spelling with two register operands parses by the shape that has two. -/
theorem parseLine_two_registers {plen : Nat} {m : Mnemonic} {i : Instr} (rd rs : Reg) (hshape : [.reg, .reg] ∈ m.shapes)
    (hi : m.withOperands [rd.toNat, rs.toNat] = some i) :
    parseLine plen (m.name ++ [' '] ++ regName rd ++ [',', ' '] ++ regName rs) = .ok i := by
  have hspelled : m.name ++ [' '] ++ regName rd ++ [',', ' '] ++ regName rs =
      m.name ++ [' '] ++ joinOperands [regName rd, regName rs] := by simp [joinOperands]
  have hname := isToken_name m
  have hregs : ∀ u ∈ [regName rd, regName rs], IsToken u := by simp [isToken_regName]
  have hne : [regName rd, regName rs] ≠ [] := List.cons_ne_nil _ _
  have hops := operandTokens_spelled hname hregs hne
  rw [hspelled]
  refine parseLine_of_values (m := m) ?_ hshape ?_ ?_ hi
  · rw [opcodeToken_spelled hname hregs hne, parseMnemonic_name]
  · rw [hops]; rfl
  · rw [hops]; simp

end Sys2Proof
end

section
/-! SUPPORT. The statements about the assembler settled. -/

namespace Sys2Proof

/-- Settles O53: the listing is cut back into its lines, each line into its opcode and operands, and each operand reads as
the number it spells; a well-formed program has room for its lines and its targets. -/
theorem disassembleThenAssemble : Obligations.DisassembleThenAssemble := by
  intro p hp
  obtain ⟨hcap, hwf⟩ := programWellFormed_iff.1 hp
  refine assemble_eq_ok hcap ?_
  rw [instructionLines_disassembleProgram, List.map_map]
  refine List.map_congr_left fun i hi => parseLine_disassemble fun target ht => ?_
  have hlt := wellFormedFor_iff.1 (hwf i hi) target ht
  exact hlt.trans_le (Nat.mod_le p.length _)

/-- Settles O54: a source without errors has at most 255 lines, and each parses to an instruction whose target is a
line. -/
theorem assembledProgramsAreWellFormed : Obligations.AssembledProgramsAreWellFormed :=
  fun _ _ h => ⟨assemble_programWellFormed h, assemble_length h⟩

/-- Settles O56: a token is compared in upper case, where letter case is gone. -/
theorem opcodesAreCaseInsensitive : Obligations.OpcodesAreCaseInsensitive := by
  intro token
  refine ⟨parseMnemonic_congr (by simp), parseMnemonic_congr (by simp), fun m => parseMnemonic_eq_some_iff, fun h => ?_⟩
  have hnone := parseMnemonic_eq_none h
  refine ⟨hnone, ?_⟩
  rintro plen line rfl
  exact parseLine_of_unknownOpcode hnone

/-- Settles O57: `parseReg` lists the eight register tokens. -/
theorem registerTokensAreExact : Obligations.RegisterTokensAreExact := by
  refine ⟨fun plen token => ⟨fun r => ?_, fun h => ?_⟩, by decide⟩
  · rw [operandValue_reg_eq_ok_iff, parseReg_eq_some_iff]
  · exact operandValue_reg_eq_error fun r hr => h r (parseReg_eq_some_iff.1 hr)

/-- Settles O58: a decimal reads as its number, which is then compared with the bound of its kind; a token with a
character that is no digit is no decimal. -/
theorem immediateTokensAreDecimal : Obligations.ImmediateTokensAreDecimal := by
  refine ⟨fun plen n zeros => ?_, fun plen kind hkind => ⟨operandValue_eq_error hkind rfl, ?_⟩, ?_⟩
  · have hn := parseDecimal_zeros_decimal zeros n
    rw [operandValue_val_eq hn, operandValue_addr_eq hn, operandValue_line_eq hn]
    exact ⟨fun h => if_pos h, fun h => if_neg h.not_gt, fun h => if_pos h, fun h => if_neg h.not_gt, fun h => if_pos h,
      fun h => if_neg h.not_gt⟩
  · rintro token ⟨c, hc, hdigit⟩
    exact operandValue_eq_error hkind (parseDecimal_eq_none hc hdigit)
  · intro plen k line token m shape kind e hm hshape hlen hkind htoken he
    exact parseLine_of_operand_error hm hshape hlen hkind htoken he

/-- Settles O59: two operands fit the second shape of ADD, SUB and MUL, three the first. -/
theorem twoOperandFormsExpand : Obligations.TwoOperandFormsExpand := by
  intro plen rd rs
  have hshape : [.reg, .reg] ∈ [[OperandKind.reg, .reg, .reg], [.reg, .reg]] :=
    List.mem_cons_of_mem _ List.mem_cons_self
  exact ⟨parseLine_two_registers (m := .add) rd rs hshape (by simp [Mnemonic.withOperands]),
    parseLine_two_registers (m := .sub) rd rs hshape (by simp [Mnemonic.withOperands]),
    parseLine_two_registers (m := .mul) rd rs hshape (by simp [Mnemonic.withOperands]),
    parseLine_disassemble nofun, parseLine_disassemble nofun, parseLine_disassemble nofun⟩

end Sys2Proof
end

section
/-! SUPPORT. The three ends of a step request, and what a fetched instruction leaves (R130 to R141). -/

namespace Sys2Proof.Machine

variable {i : Instr} {s t : State}

theorem halted_eq_true_iff : s.halted = true ↔ s.plen.toNat ≤ s.pc.toNat := by
  simp [State.halted, BitVec.le_def]

/-- A legal word is executed from the fetch-latched state, and the step answers what the execution does. -/
theorem exists_exec_of_ok (hh : s.halted = false) (hd : decode s.fetchWord s.plen = .ok i) :
    ∃ t, exec i (s.latchFetch s.fetchWord) = .next t ∧ step s = .next t := by
  obtain ⟨t, ht⟩ := exec_answers_next i (s.latchFetch s.fetchWord)
  exact ⟨t, ht, (step_of_ok hh hd).trans ht⟩

theorem stepRequest_of_halted (hh : s.halted = true) : s.stepRequest = (s, .halted) := by
  rw [State.stepRequest, after_of_next (step_of_halted hh), result_of_halted hh]

theorem stepRequest_of_ok (hh : s.halted = false) (hd : decode s.fetchWord s.plen = .ok i) (ht : step s = .next t) :
    s.stepRequest = (t, .ok t.busTrace) := by
  rw [State.stepRequest, result_of_ok hh hd, after_of_next ht]

/-- A step request reports HALTED or an ERROR and leaves the state, or it reports OK with the next state's buses. -/
theorem stepRequest_cases (s : State) :
    s.stepRequest = (s, .halted) ∨ (∃ c, s.stepRequest = (s, .error c)) ∨
      ∃ t, step s = .next t ∧ s.stepRequest = (t, .ok t.busTrace) := by
  cases hh : s.halted with
  | true => exact .inl (stepRequest_of_halted hh)
  | false =>
    cases hd : decode s.fetchWord s.plen with
    | error c => exact .inr (.inl ⟨c, stepRequest_of_error (halted_eq_false_iff.1 hh) hd⟩)
    | ok i =>
      obtain ⟨t, -, hstep⟩ := exists_exec_of_ok hh hd
      exact .inr (.inr ⟨t, hstep, stepRequest_of_ok hh hd hstep⟩)

theorem halted_of_result_halted (h : s.result = .halted) : s.halted = true := by
  rw [← Bool.not_eq_false]
  exact fun hh => result_ne_halted hh h

/-- Only a step with result OK writes state. -/
theorem after_eq_self_of_result (h : s.result = .halted ∨ ∃ c, s.result = .error c) : s.after = s := by
  rcases stepRequest_cases s with hreq | ⟨c, hreq⟩ | ⟨t, -, hreq⟩
  · exact congrArg Prod.fst hreq
  · exact congrArg Prod.fst hreq
  · have hok : s.result = .ok t.busTrace := congrArg Prod.snd hreq
    simp [hok] at h

/-- A step with result OK answers a next state. -/
theorem step_of_result_ok {trace : BusTrace} (h : s.result = .ok trace) : step s = .next s.after := by
  rcases stepRequest_cases s with hreq | ⟨c, hreq⟩ | ⟨t, hstep, -⟩
  · have hhalted : s.result = .halted := congrArg Prod.snd hreq
    cases h.symm.trans hhalted
  · have herror : s.result = .error c := congrArg Prod.snd hreq
    cases h.symm.trans herror
  · rw [hstep, after_of_next hstep]

/-- Reading the fetch-latched state's flags and registers is reading the state's. -/
theorem flagsLeft_latchFetch (i : Instr) (s : State) (w : Word) : flagsLeft i (s.latchFetch w) = flagsLeft i s :=
  flagsLeft_congr (fun r _ => readReg_latchFetch s w r) (latchFetch_flags s w)

theorem busTable_abus_of_ne_store (h : i.mnemonic ≠ .store) : (busTable i s).abus = s.pc := by
  cases i <;> simp_all [busTable, Instr.mnemonic]

/-- Writing the S of a state with the same program makes that state. -/
theorem hostWrite_hostRead (h : ProgramSame s t) : t.hostWrite s.hostRead = s := by
  obtain ⟨himem, hplen⟩ := h
  rw [State.hostWrite, himem, hplen]
  rfl

/-! ### runAll (R144) -/

theorem runAll_of_halted (n : Nat) (h : s.result = .halted) : s.runAll (n + 1) = ([], s, .halted) := by
  simp [State.runAll, h]

theorem runAll_of_error (n : Nat) {c : Cause} (h : s.result = .error c) : s.runAll (n + 1) = ([], s, .error c) := by
  simp [State.runAll, h]

theorem runAll_of_ok (n : Nat) {trace : BusTrace} (h : s.result = .ok trace) :
    s.runAll (n + 1) = (trace :: (s.after.runAll n).1, (s.after.runAll n).2) := by
  simp [State.runAll, h]

/-- What the end of a runAll says of its last state, or of its length. -/
def RunEnd.Fits (n length : Nat) (t : State) : RunEnd → Prop
  | .halted => t.result = .halted
  | .error c => t.result = .error c
  | .bound => length = n

theorem RunEnd.Fits.succ {n length : Nat} {why : RunEnd} (h : why.Fits n length t) :
    why.Fits (n + 1) (length + 1) t := by
  cases why with
  | halted => exact h
  | error c => exact h
  | bound => exact congrArg Nat.succ h

/-- As many single steps from `s` as there are traces, each with its own, end in `t` for the reason `why`. -/
structure StepsTo (n : Nat) (s : State) (traces : List BusTrace) (t : State) (why : RunEnd) : Prop where
  run : Sys2Proof.core.run traces.length s = .next t
  state : t = State.after^[traces.length] s
  trace : ∀ (k : Nat) (trace : BusTrace), traces[k]? = some trace → (State.after^[k] s).result = .ok trace
  fits : why.Fits n traces.length t

theorem StepsTo.nil {n : Nat} {why : RunEnd} (h : why.Fits n 0 s) : StepsTo n s [] s why :=
  ⟨core_run_zero s, rfl, fun _ _ hk => (nomatch hk), h⟩

theorem StepsTo.cons {n : Nat} {trace : BusTrace} {traces : List BusTrace} {why : RunEnd} (hok : s.result = .ok trace)
    (h : StepsTo n s.after traces t why) : StepsTo (n + 1) s (trace :: traces) t why where
  run := (core_run_of_next _ (step_of_result_ok hok)).trans h.run
  state := h.state
  trace
    | 0, _, hk => by cases hk; exact hok
    | k + 1, x, hk => h.trace k x hk
  fits := h.fits.succ

theorem runAll_stepsTo (n : Nat) (s : State) : StepsTo n s (s.runAll n).1 (s.runAll n).2.1 (s.runAll n).2.2 := by
  induction n generalizing s with
  | zero => exact .nil rfl
  | succ n ih =>
    cases hr : s.result with
    | halted => rw [runAll_of_halted n hr]; exact .nil hr
    | error c => rw [runAll_of_error n hr]; exact .nil hr
    | ok trace => rw [runAll_of_ok n hr]; exact .cons hr (ih s.after)

/-- A program whose line 0 is `JMP 0`, at that line. -/
structure AtSelfJump (s : State) : Prop where
  pc : s.pc = 0
  plen : s.plen ≠ 0
  word : s.imem.read 0 = 0x9000

/-- `JMP 0` at line 0 steps, and to itself. -/
theorem AtSelfJump.step (h : AtSelfJump s) : AtSelfJump s.after ∧ ∃ trace, s.result = .ok trace := by
  obtain ⟨hpc, hplen, hword⟩ := h
  have hpos : (0 : Line).toNat < s.plen.toNat := Nat.pos_of_ne_zero fun h0 => hplen (BitVec.eq_of_toNat_eq h0)
  have hh : s.halted = false := halted_eq_false_iff.2 (hpc ▸ hpos)
  have hfetch : s.fetchWord = encode (.jmp 0) := by rw [State.fetchWord, hpc]; exact hword
  have hd : decode s.fetchWord s.plen = .ok (.jmp 0) := by rw [hfetch, decode_encode_jmp hpos]
  have hafter : s.after = (s.latchFetch s.fetchWord).branch true 0 := after_of_next (step_of_ok hh hd)
  refine ⟨?_, _, result_of_ok hh hd⟩
  rw [hafter]
  exact ⟨rfl, hplen, hword⟩

theorem AtSelfJump.runAll_bound (h : AtSelfJump s) (n : Nat) : (s.runAll n).2.2 = .bound := by
  induction n generalizing s with
  | zero => rfl
  | succ n ih =>
    obtain ⟨hafter, trace, hok⟩ := h.step
    rw [runAll_of_ok n hok]
    exact ih hafter

end Sys2Proof.Machine
end

section
/-! SUPPORT. The sub-blocks of R158: the fetch unit reports what decode answers, and in a step that commits each
sub-block does its part of the execution. -/

namespace Sys2Proof.Machine

variable {i : Instr} {m : Mnemonic} {w : Word} {plen : Byte} {s t : State}

/-! ### The status of the fetch unit (R100, R101, R224) -/

theorem reservedBitsSet_of_opcode (hop : opOf w = m.opcode) :
    reservedBitsSet w = decide (w &&& m.format.reservedMask ≠ 0) := by
  rw [reservedBitsSet, hop]
  cases m <;> rfl

/-- The unit's range of jump opcodes with its comparison is decode's target check (R101). -/
theorem badTarget_eq (m : Mnemonic) (w : Word) (plen : Byte) :
    (decide (9 ≤ m.opcode.toNat) && decide (m.opcode.toNat ≤ 13) && decide (plen ≤ line8Of w)) =
      !(m.withFields w).wellFormedFor plen := by
  cases m <;> simp [Mnemonic.withFields, Instr.wellFormedFor, Instr.target?, Mnemonic.opcode, ← BitVec.not_le]

theorem opcode_ne_15 (m : Mnemonic) : m.opcode.toNat ≠ 15 := by
  cases m <;> decide

/-- The unit's outputs `illegal` and `cause` say what an answer of decode says. -/
def Control.Reports (k : Control) : Except Cause Instr → Prop
  | .error c => k.illegal = true ∧ k.cause = causeCode c
  | .ok _ => k.illegal = false

theorem fetchDecodeUnit_reports (pc : Line) (plen : Byte) (w : Word) :
    (fetchDecodeUnit pc plen w).Reports (decode w plen) := by
  cases hm : mnemonicOf (opOf w) with
  | none =>
    have hop := mnemonicOf_eq_none_iff.1 hm
    rw [decode_of_decodeWord_error (decodeWord_eq_illegalOpcode_iff.2 hop)]
    simp [Control.Reports, fetchDecodeUnit, hop, causeCode]
  | some m =>
    have hop := mnemonicOf_eq_some_iff.1 hm
    have hreserved := reservedBitsSet_of_opcode hop
    by_cases hz : w &&& m.format.reservedMask = 0
    · have hword : decodeWord w = .ok (m.withFields w) := decodeWord_of_encodedBy (encodedBy_iff.2 ⟨hop, hz⟩)
      have hclear : reservedBitsSet w = false := hreserved.trans (decide_eq_false (not_not_intro hz))
      cases hwf : (m.withFields w).wellFormedFor plen with
      | true =>
        rw [decode_eq_ok_iff.2 ⟨hword, hwf⟩]
        simp [Control.Reports, fetchDecodeUnit, hop, opcode_ne_15, hclear, badTarget_eq, hwf]
      | false =>
        have hd : decode w plen = .error .badTarget := by simp [decode, hword, hwf]
        rw [hd]
        simp [Control.Reports, fetchDecodeUnit, hop, opcode_ne_15, hclear, badTarget_eq, hwf, causeCode]
    · have hset : reservedBitsSet w = true := hreserved.trans (decide_eq_true hz)
      rw [decode_of_decodeWord_error (decodeWord_eq_reservedBits_iff.2 ⟨m, hop, hz⟩)]
      simp [Control.Reports, fetchDecodeUnit, hop, opcode_ne_15, hset, causeCode]

/-! ### The wires of the datapath -/

/-- The outputs of the fetch unit in `s`. -/
def State.control (s : State) : Control := fetchDecodeUnit s.pc s.plen s.fetchWord

/-- Read port A of the register file in `s`. -/
def State.portA (s : State) : Byte := (registerReadPorts s.regs s.control).1

/-- The ALU's answer in `s`. -/
def State.aluOut (s : State) : AluOut := alu s.control.aluOp s.portA (registerReadPorts s.regs s.control).2

/-- What the write port of the register file is given in `s`. -/
def State.writeBack (s : State) : Byte :=
  match s.control.wbSel with
  | .imm => s.control.imm8
  | .regB => s.portA
  | .alu => s.aluOut.y

/-- The state that the sub-blocks hold after a step that commits. -/
def State.committed (s : State) : State :=
  let stage := stagingRegisters s.mar s.mdr s.control.stageWe s.control.addr6 s.portA
  let buses := busLatches s true s.control s.portA
  { s with
    regs := registerWritePort s.regs s.control.regWe s.control.ra s.writeBack
    mem := memoryWritePort s.mem s.control.memWe s.control.addr6 s.portA
    pc := (branchResolver s.control.op s.flags.z s.flags.n s.flags.c s.pc s.control.line8).2
    ir := s.fetchWord
    mar := stage.1
    mdr := stage.2
    flags := flagRegister s.flags s.control.flagsWe s.aluOut.flags
    abus := buses.abus
    dbus := buses.dbus
    cbus := buses.cbus }

theorem control_reports (s : State) : s.control.Reports (decode s.fetchWord s.plen) :=
  fetchDecodeUnit_reports s.pc s.plen s.fetchWord

theorem control_halted (s : State) : s.control.halted = s.halted := rfl

/-- Where the step commits, no write enable is masked. -/
theorem datapathStep_of_legal (hh : s.halted = false) (hl : s.control.illegal = false) :
    datapathStep s = (s.committed, 0b0000) := by
  rw [← control_halted] at hh
  unfold State.control at hh hl
  simp only [datapathStep, hh, hl, Bool.not_false, Bool.and_true]
  rfl

/-- Where it does not commit, every write enable is low. -/
theorem datapathStep_of_not_commit (hc : (!s.halted && !s.control.illegal) = false) :
    datapathStep s =
      (s, if s.halted then 0b0100 else if s.control.illegal then 0b10#2 ++ s.control.cause else 0b0000) := by
  rw [← control_halted] at hc ⊢
  unfold State.control at hc
  simp only [datapathStep, hc, Bool.and_false]
  rfl

theorem datapathStep_of_halted (hh : s.halted = true) : datapathStep s = (s, 0b0100) := by
  rw [datapathStep_of_not_commit (by simp [hh]), if_pos hh]

theorem datapathStep_of_illegal (hh : s.halted = false) (hl : s.control.illegal = true) :
    datapathStep s = (s, 0b10#2 ++ s.control.cause) := by
  rw [datapathStep_of_not_commit (by simp [hl]), hh, hl]
  rfl

/-! ### Each sub-block in a step that commits -/

section Commit

variable (hop : opOf s.fetchWord = m.opcode)
  (ht : exec (m.withFields s.fetchWord) (s.latchFetch s.fetchWord) = .next t)
include hop ht

theorem registerWritePort_exec : registerWritePort s.regs s.control.regWe s.control.ra s.writeBack = t.regs := by
  simp only [State.writeBack, State.aluOut, State.portA, State.control, fetchDecodeUnit, hop]
  cases m <;> cases ht <;> rfl

theorem flagRegister_exec : flagRegister s.flags s.control.flagsWe s.aluOut.flags = t.flags := by
  simp only [State.aluOut, State.portA, State.control, fetchDecodeUnit, hop]
  cases m <;> cases ht <;> rfl

theorem memoryWritePort_exec : memoryWritePort s.mem s.control.memWe s.control.addr6 s.portA = t.mem := by
  simp only [State.portA, State.control, fetchDecodeUnit, hop]
  cases m <;> cases ht <;> rfl

theorem stagingRegisters_exec :
    stagingRegisters s.mar s.mdr s.control.stageWe s.control.addr6 s.portA = (t.mar, t.mdr) := by
  simp only [State.portA, State.control, fetchDecodeUnit, hop]
  cases m <;> cases ht <;> rfl

theorem branchResolver_exec :
    (branchResolver s.control.op s.flags.z s.flags.n s.flags.c s.pc s.control.line8).2 = t.pc := by
  simp only [State.control, fetchDecodeUnit, hop]
  cases m <;> cases ht <;> rfl

theorem busLatches_exec : busLatches s true s.control s.portA = t.busTrace := by
  simp only [State.portA, State.control, fetchDecodeUnit, hop]
  cases m <;> cases ht <;> rfl

end Commit

/-- Together the sub-blocks do the whole execution of a legal word. -/
theorem committed_eq_exec (hd : decode s.fetchWord s.plen = .ok i) (ht : exec i (s.latchFetch s.fetchWord) = .next t) :
    s.committed = t := by
  obtain ⟨hrow, hfields⟩ := decodeWord_eq_ok_iff.1 (decode_eq_ok_iff.1 hd).1
  obtain ⟨hop, -⟩ := encodedBy_iff.1 hrow
  have hir : t.ir = s.fetchWord := exec_ir ht
  obtain ⟨himem, hplen⟩ : ProgramSame s t := exec_programSame (s := s.latchFetch s.fetchWord) ht
  rw [← hfields] at ht
  rw [State.committed, registerWritePort_exec hop ht, memoryWritePort_exec hop ht, branchResolver_exec hop ht,
    stagingRegisters_exec hop ht, flagRegister_exec hop ht, busLatches_exec hop ht, ← hir, ← himem, ← hplen]
  rfl

end Sys2Proof.Machine
end

section
/-! SUPPORT. The statements about the step settled. -/

namespace Sys2Proof.Machine

/-- Settles O47: the unit reports decode's answer, with which the step decides too; where it commits, each sub-block does
its part of the execution, and where it does not, none writes. -/
theorem datapathRefinesTheStep : Obligations.DatapathRefinesTheStep := by
  intro s
  have hreports := control_reports s
  cases hh : s.halted with
  | true => rw [datapathStep_of_halted hh, after_of_next (step_of_halted hh), result_of_halted hh, StepResult.code]
  | false =>
    cases hd : decode s.fetchWord s.plen with
    | error c =>
      rw [hd] at hreports
      obtain ⟨hillegal, hcause⟩ := hreports
      rw [datapathStep_of_illegal hh hillegal, hcause, after_of_fault (step_of_error hh hd), result_of_error hh hd,
        StepResult.code]
    | ok i =>
      rw [hd] at hreports
      obtain ⟨t, hexec, hstep⟩ := exists_exec_of_ok hh hd
      rw [datapathStep_of_legal hh hreports, committed_eq_exec hd hexec, after_of_next hstep, result_of_ok hh hd,
        StepResult.code]

/-- Settles O13: a step that reports no OK leaves its state, which is then a fixed point of `after`. -/
theorem haltedAndErrorStatesRepeat : Obligations.HaltedAndErrorStatesRepeat := by
  intro s n h
  have hfix : State.after^[n] s = s := Function.iterate_fixed (after_eq_self_of_result h) n
  exact ⟨hfix, congrArg State.result hfix⟩

/-- Settles O14: no execution writes IR, and the buses are those of the table of R141. -/
theorem everyOkStepLatchesItsFetch : Obligations.EveryOkStepLatchesItsFetch := by
  intro s i hpc hd
  obtain ⟨t, hexec, hstep⟩ := exists_exec_of_ok (halted_eq_false_iff.2 hpc) hd
  have hbuses := exec_latchFetch_busTrace hexec
  have habus : t.abus = (busTable i s).abus := congrArg BusTrace.abus hbuses
  have hcbus : t.cbus = (busTable i s).cbus := congrArg BusTrace.cbus hbuses
  exact ⟨t, hstep, exec_ir hexec, fun hs => habus.trans (busTable_abus_of_ne_store hs),
    fun hs hl => hcbus.trans (busTable_cbus_of_neither hl hs)⟩

/-- Settles O15: the execution leaves the buses of the table, and the result of the step is OK with them. -/
theorem okStepsLeaveTheTabledBusValues : Obligations.OkStepsLeaveTheTabledBusValues := by
  intro s i hpc hd
  have hh := halted_eq_false_iff.2 hpc
  obtain ⟨t, hexec, hstep⟩ := exists_exec_of_ok hh hd
  have hbuses := exec_latchFetch_busTrace hexec
  refine ⟨t, hstep, hbuses, ?_⟩
  rw [result_of_ok hh hd, after_of_next hstep, hbuses]

/-- Settles O16: an execution leaves the target of a taken jump or `pc + 1`, which has room below PLEN. -/
theorem nextPcIsTheBranchResolvers : Obligations.NextPcIsTheBranchResolvers := by
  intro s i hpc hd
  obtain ⟨t, hexec, hstep⟩ := exists_exec_of_ok (halted_eq_false_iff.2 hpc) hd
  have htaken : branchTaken i s.flags = true → i.target? = some t.pc :=
    exec_pc_of_taken (s := s.latchFetch s.fetchWord) hexec
  refine ⟨t, hstep, fun line htarget hb => ?_, fun hb => ⟨t.pc, htaken hb⟩,
    exec_pc_of_untaken (s := s.latchFetch s.fetchWord) hexec, ?_⟩
  · exact Option.some.inj ((htaken hb).symm.trans htarget)
  · rw [toNat_pc_add_one hpc]
    exact hpc

/-- Settles O18: an execution leaves the flags of the table, which the fetch does not reach. -/
theorem flagsComeFromFlagDefiningInstructions : Obligations.FlagsComeFromFlagDefiningInstructions := by
  intro s i hpc hd
  obtain ⟨t, hexec, hstep⟩ := exists_exec_of_ok (halted_eq_false_iff.2 hpc) hd
  exact ⟨t, hstep, (exec_flags hexec).trans (flagsLeft_latchFetch i s s.fetchWord)⟩

/-- Settles O44: each trace of runAll is one step's, by induction on the bound; `JMP 0` at line 0 steps to itself. -/
theorem runAllIsRepeatedStepping : Obligations.RunAllIsRepeatedStepping := by
  refine ⟨fun n s t traces why hrun => ?_, fun n s hpc hplen hword => AtSelfJump.runAll_bound ⟨hpc, hplen, hword⟩ n⟩
  have hsteps := runAll_stepsTo n s
  rw [hrun] at hsteps
  obtain ⟨hcore, hstate, htrace, hfits⟩ := hsteps
  refine ⟨hcore, hstate, htrace, ?_, ?_, ?_⟩
  · rintro rfl
    exact hfits
  · rintro c rfl
    exact hfits
  · rintro rfl
    exact hfits

/-- Settles O10: the three branches of the step, and what the fetch latches. -/
theorem stepRunsTheDecodedInstruction : Obligations.StepRunsTheDecodedInstruction :=
  ⟨fun _ _ hpc hd => ⟨step_of_ok (halted_eq_false_iff.2 hpc) hd, rfl⟩,
    fun _ hpc => step_of_halted (halted_eq_true_iff.2 hpc),
    fun _ _ hpc hd => step_of_error (halted_eq_false_iff.2 hpc) hd⟩

/-- Settles O11: HALTED is the result of a halted core alone, and every pc is at or above 0. -/
theorem haltedStepChangesNothing : Obligations.HaltedStepChangesNothing := by
  refine ⟨fun s hpc => stepRequest_of_halted (halted_eq_true_iff.2 hpc),
    fun s hr => halted_eq_true_iff.1 (halted_of_result_halted hr), fun s hplen => ?_⟩
  have hpc : s.plen.toNat ≤ s.pc.toNat := by rw [hplen]; exact Nat.zero_le _
  exact result_of_halted (halted_eq_true_iff.2 hpc)

/-- Settles O12: decode's answer decides between the ERROR and the OK of a step request. -/
theorem illegalWordStepWritesNothing : Obligations.IllegalWordStepWritesNothing := by
  refine fun s hpc => ⟨fun c hd => stepRequest_of_error hpc hd, fun i hd => ?_⟩
  have hh := halted_eq_false_iff.2 hpc
  obtain ⟨t, -, hstep⟩ := exists_exec_of_ok hh hd
  exact ⟨t, hstep, stepRequest_of_ok hh hd hstep⟩

/-- Settles O43: a step keeps the program, so S is all there is to restore. -/
theorem restoreUndoesAStepAndStepRedoesIt : Obligations.RestoreUndoesAStepAndStepRedoesIt := by
  intro s t hstep
  have hrestore := hostWrite_hostRead (step_programSame hstep)
  exact ⟨hrestore, by rw [hrestore, hstep]⟩

/-- Settles O45: the status of each kind of result. -/
theorem resultPortCodes : Obligations.ResultPortCodes := by
  refine ⟨fun _ => rfl, rfl, rfl, rfl, rfl, fun s => ?_⟩
  cases s.result with
  | ok trace => rw [StepResult.code]; decide
  | halted => decide
  | error c => cases c <;> decide

end Sys2Proof.Machine
end

section
/-! SUPPORT. What an execution leaves of MAR, MDR and the buses, and the frame of every instruction but LOAD and STORE (R160 to
R162). -/

namespace Sys2Proof.Machine

variable {i : Instr} {s t : State} {rx : Reg}

theorem exec_stagingSame_of_ne_store (ht : exec i s = .next t) (h : i.mnemonic ≠ .store) : StagingSame s t := by
  have hstored : storedByte i s = none := storedByte_eq_none h
  constructor
  · rw [exec_mar ht, hstored, Option.elim_none]
  · rw [exec_mdr ht, hstored, Option.elim_none]

/-- The address is zero-extended into MAR. -/
theorem exec_store_mar {addr : Addr} (ht : exec (.store rx addr) s = .next t) : t.mar.toNat = addr.toNat :=
  (congrArg BitVec.toNat (exec_mar ht)).trans (BitVec.toNat_setWidth_of_le (by decide))

theorem exec_busTrace_of_load {val : Byte} (ht : exec (.load rx val) s = .next t) :
    t.busTrace = { abus := s.abus, dbus := val, cbus := .imm } := by
  cases ht
  rfl

theorem exec_busTrace_of_store {addr : Addr} (ht : exec (.store rx addr) s = .next t) :
    t.busTrace = { abus := t.mar, dbus := t.mdr, cbus := .memwr } := by
  cases ht
  rfl

/-- Only LOAD and STORE drive a bus in their execution. -/
theorem exec_busTrace_of_neither (ht : exec i s = .next t) (hl : i.mnemonic ≠ .load) (hs : i.mnemonic ≠ .store) :
    t.busTrace = s.busTrace := by
  cases i with
  | load rx val => exact absurd rfl hl
  | store rx addr => exact absurd rfl hs
  | _ => cases ht; rfl

/-- What an instruction that is neither LOAD nor STORE changes: its register, the flags and the pc. -/
theorem exec_untouched (ht : exec i s = .next t) (hl : i.mnemonic ≠ .load) (hs : i.mnemonic ≠ .store) :
    Untouched (writtenReg i) s t where
  regs := exec_regsSameExcept ht
  mem b _ := congrArg (·.read b) (exec_mem_of_ne_store ht hs)
  ir := exec_ir ht
  staging := exec_stagingSame_of_ne_store ht hs
  buses :=
    have hbuses := exec_busTrace_of_neither ht hl hs
    ⟨congrArg BusTrace.abus hbuses, congrArg BusTrace.dbus hbuses, congrArg BusTrace.cbus hbuses⟩
  program := exec_programSame ht

end Sys2Proof.Machine
end

section
/-! SUPPORT. The statements about data transfer settled. -/

namespace Sys2Proof.Machine

/-- Settles O26: the one byte that STORE stores is `x[ra]`, staged through MAR and MDR, from which the buses are driven. -/
theorem storeWritesItsCell : Obligations.StoreWritesItsCell := by
  intro rx addr s
  obtain ⟨t, ht⟩ := exec_answers_next (.store rx addr) s
  have hmar : t.mar.toNat = addr.toNat := exec_store_mar ht
  have hmdr : t.mdr = s.readReg rx := exec_mdr ht
  have hbuses := exec_busTrace_of_store ht
  have habus : t.abus = t.mar := congrArg BusTrace.abus hbuses
  have hdbus : t.dbus = t.mdr := congrArg BusTrace.dbus hbuses
  have hcbus : t.cbus = .memwr := congrArg BusTrace.cbus hbuses
  refine ⟨t, ht, exec_store_read ht, ?_, hmar, hmdr, habus ▸ hmar, hdbus.trans hmdr, hcbus, exec_pc_of_untaken ht rfl,
    exec_regsSameExcept ht, exec_flags ht, exec_ir ht, exec_programSame ht⟩
  rintro a rfl b hb
  exact exec_memSameExcept ht b fun hcell => hb (Option.some.inj hcell).symm

/-- Settles O25: LOAD writes its immediate to its register and drives it on the Data Bus; it stages no store. -/
theorem loadWritesItsImmediate : Obligations.LoadWritesItsImmediate := by
  intro rx val s
  obtain ⟨t, ht⟩ := exec_answers_next (.load rx val) s
  have hval : t.readReg rx = val := Option.some.inj (exec_readReg_written ht rfl)
  have hbuses := exec_busTrace_of_load ht
  have habus : t.abus = s.abus := congrArg BusTrace.abus hbuses
  have hdbus : t.dbus = val := congrArg BusTrace.dbus hbuses
  have hcbus : t.cbus = .imm := congrArg BusTrace.cbus hbuses
  exact ⟨t, ht, hval, hdbus, hcbus, exec_pc_of_untaken ht rfl, exec_regsSameExcept ht, exec_memSameExcept ht, exec_flags ht,
    habus, exec_ir ht, exec_stagingSame_of_ne_store ht nofun, exec_programSame ht⟩

/-- Settles O27: MOV writes what its source held before, and has the frame of an instruction that neither loads nor stores. -/
theorem movCopiesItsSource : Obligations.MovCopiesItsSource := by
  intro rd rs s
  obtain ⟨t, ht⟩ := exec_answers_next (.mov rd rs) s
  have hcopy : t.readReg rd = s.readReg rs := Option.some.inj (exec_readReg_written ht rfl)
  exact ⟨t, ht, hcopy, exec_flags ht, exec_pc_of_untaken ht rfl, exec_untouched ht nofun nofun⟩

end Sys2Proof.Machine
end

section
/-! SUPPORT. The ALU's result and flags as arithmetic on what its operands read as (R171 to R176, R183, R184). -/

namespace Sys2Proof.Machine

variable (op : AluOp) (a b : Byte)

/-! ### The result -/

/-- For each operation, the result is the exact one modulo 256. -/
theorem toNat_alu_y : ((alu op a b).y.toNat : Int) = op.exact a b % 256 := by
  have hnonneg : 0 ≤ op.exact a b % 256 := Int.emod_nonneg _ (by decide)
  exact (congrArg Nat.cast (BitVec.toNat_ofInt (op.exact a b))).trans (Int.toNat_of_nonneg hnonneg)

theorem toNat_alu_add_y : (alu .add a b).y.toNat = (a.toNat + b.toNat) % 256 := by
  rw [alu_add_y, BitVec.toNat_add]

/-- A borrow is repaid before the subtraction, which in `Nat` would stop at 0. -/
theorem toNat_alu_sub_y : (alu .sub a b).y.toNat = (a.toNat + 256 - b.toNat) % 256 := by
  have hb := b.isLt
  rw [alu_sub_y, BitVec.toNat_sub]
  omega

theorem toNat_alu_mul_y : (alu .mul a b).y.toNat = a.toNat * b.toNat % 256 := by
  rw [alu_mul_y, BitVec.toNat_mul]

/-! ### Zero and Negative (R172, R173) -/

theorem alu_z_iff : (alu op a b).flags.z = true ↔ (alu op a b).y.toNat = 0 := by
  rw [alu_z, zeroFlag, decide_eq_true_iff, BitVec.toNat_eq]
  rfl

theorem alu_n_iff : (alu op a b).flags.n = true ↔ 128 ≤ (alu op a b).y.toNat := by
  rw [alu_n, negativeFlag, getLsbD_seven, decide_eq_true_iff]

/-- A difference of bytes is 0 modulo 256 for equal bytes alone. -/
theorem alu_sub_z_iff : (alu .sub a b).flags.z = true ↔ a = b := by
  have ha := a.isLt
  have hb := b.isLt
  rw [alu_z_iff, toNat_alu_sub_y, BitVec.toNat_eq]
  omega

/-! ### Carry (R174) -/

theorem alu_add_c_iff : (alu .add a b).flags.c = true ↔ 255 < a.toNat + b.toNat := by
  rw [alu_c, carryFlag, decide_eq_true_iff, AluOp.exact]
  omega

theorem alu_sub_c_iff : (alu .sub a b).flags.c = true ↔ a.toNat < b.toNat := by
  rw [alu_c, carryFlag, decide_eq_true_iff]

theorem alu_mul_c_iff : (alu .mul a b).flags.c = true ↔ 255 < a.toNat * b.toNat := by
  rw [alu_c, carryFlag, decide_eq_true_iff, AluOp.exact, ← Int.natCast_mul]
  omega

/-! ### Overflow (R175, R176) -/

theorem alu_mul_v_eq_c : (alu .mul a b).flags.v = (alu .mul a b).flags.c := rfl

theorem alu_add_v_iff_sign_bits : (alu .add a b).flags.v = true ↔
    (128 ≤ a.toNat ↔ 128 ≤ b.toNat) ∧ ¬(128 ≤ (alu .add a b).y.toNat ↔ 128 ≤ a.toNat) := by
  simp only [alu_v, overflowFlag, getLsbD_seven, Bool.and_eq_true, beq_iff_eq, bne_iff_ne, ne_eq, decide_eq_decide]

theorem alu_sub_v_iff_sign_bits : (alu .sub a b).flags.v = true ↔
    ¬(128 ≤ a.toNat ↔ 128 ≤ b.toNat) ∧ ¬(128 ≤ (alu .sub a b).y.toNat ↔ 128 ≤ a.toNat) := by
  simp only [alu_v, overflowFlag, getLsbD_seven, Bool.and_eq_true, bne_iff_ne, ne_eq, decide_eq_decide]

/-- The two's-complement reading differs from the unsigned one by 256 when the sign bit is set. -/
theorem s8_cases (v : Byte) :
    (v.toNat < 128 ∧ s8 v = v.toNat) ∨ (128 ≤ v.toNat ∧ s8 v = (v.toNat : Int) - 256) := by
  unfold s8
  split
  · exact .inl ⟨‹_›, rfl⟩
  · exact .inr ⟨by omega, rfl⟩

theorem alu_add_v_iff : (alu .add a b).flags.v = true ↔ ¬(-128 ≤ s8 a + s8 b ∧ s8 a + s8 b ≤ 127) := by
  have ha := a.isLt
  have hb := b.isLt
  rw [alu_add_v_iff_sign_bits, toNat_alu_add_y]
  have hsa := s8_cases a
  have hsb := s8_cases b
  omega

theorem alu_sub_v_iff : (alu .sub a b).flags.v = true ↔ ¬(-128 ≤ s8 a - s8 b ∧ s8 a - s8 b ≤ 127) := by
  have ha := a.isLt
  have hb := b.isLt
  rw [alu_sub_v_iff_sign_bits, toNat_alu_sub_y]
  have hsa := s8_cases a
  have hsb := s8_cases b
  omega

/-! ### The constant 1 as second operand (R183, R184) -/

theorem alu_add_one_v_iff : (alu .add a 1).flags.v = true ↔ a.toNat = 127 := by
  have ha := a.isLt
  have hone : s8 1 = 1 := rfl
  rw [alu_add_v_iff, hone]
  have hsa := s8_cases a
  omega

theorem alu_sub_one_v_iff : (alu .sub a 1).flags.v = true ↔ a.toNat = 128 := by
  have ha := a.isLt
  have hone : s8 1 = 1 := rfl
  rw [alu_sub_v_iff, hone]
  have hsa := s8_cases a
  omega

end Sys2Proof.Machine
end

section
/-! SUPPORT. The statements about the ALU settled. -/

namespace Sys2Proof.Machine

/-- Settles O34: Zero and Negative are read off the stored byte, which is the exact result modulo 256. -/
theorem zeroAndNegativeAreOfTheStoredResult : Obligations.ZeroAndNegativeAreOfTheStoredResult := by
  intro op a b
  rw [← toNat_alu_y, alu_z_iff, alu_n_iff]
  exact ⟨rfl, by omega, by omega⟩

/-- Settles O35: each carry is a comparison of the exact result or of the operands; MUL computes V as it computes C. -/
theorem carryIsCarryOrBorrow : Obligations.CarryIsCarryOrBorrow := fun a b =>
  ⟨alu_add_c_iff a b, alu_sub_c_iff a b, alu_mul_c_iff a b, alu_mul_v_eq_c a b⟩

/-- Settles O36: the model computes V by the sign bits, and that test is the range test on the exact signed result. -/
theorem overflowIsSignedOverflow : Obligations.OverflowIsSignedOverflow := fun a b =>
  ⟨alu_add_v_iff a b, alu_add_v_iff_sign_bits a b, alu_sub_v_iff a b, alu_sub_v_iff_sign_bits a b, alu_mul_c_iff a b⟩

/-- Settles O28: ADD stores the ALU's sum of the source values from before the write, and leaves its flags. -/
theorem addStoresTheSum : Obligations.AddStoresTheSum := by
  intro rd rs1 rs2 s
  obtain ⟨t, ht⟩ := exec_answers_next (.add rd rs1 rs2) s
  have hsum : t.readReg rd = (alu .add (s.readReg rs1) (s.readReg rs2)).y := Option.some.inj (exec_readReg_written ht rfl)
  have hflags : t.flags = (alu .add (s.readReg rs1) (s.readReg rs2)).flags := exec_flags ht
  refine ⟨t, ht, ?_⟩
  rw [hsum, hflags, alu_z_iff, alu_n_iff, toNat_alu_add_y]
  exact ⟨rfl, .rfl, .rfl, alu_add_c_iff _ _, alu_add_v_iff _ _, exec_pc_of_untaken ht rfl, exec_untouched ht nofun nofun⟩

/-- Settles O29: SUB stores the ALU's difference of the source values from before the write, and leaves its flags. -/
theorem subStoresTheDifference : Obligations.SubStoresTheDifference := by
  intro rd rs1 rs2 s
  obtain ⟨t, ht⟩ := exec_answers_next (.sub rd rs1 rs2) s
  have hdiff : t.readReg rd = (alu .sub (s.readReg rs1) (s.readReg rs2)).y := Option.some.inj (exec_readReg_written ht rfl)
  have hflags : t.flags = (alu .sub (s.readReg rs1) (s.readReg rs2)).flags := exec_flags ht
  refine ⟨t, ht, ?_⟩
  rw [hdiff, hflags, alu_n_iff, toNat_alu_sub_y]
  exact ⟨rfl, alu_sub_z_iff _ _, .rfl, alu_sub_c_iff _ _, alu_sub_v_iff _ _, exec_pc_of_untaken ht rfl,
    exec_untouched ht nofun nofun⟩

/-- Settles O30: MUL stores the ALU's product of the source values from before the write, and leaves its flags. -/
theorem mulStoresTheProduct : Obligations.MulStoresTheProduct := by
  intro rd rs1 rs2 s
  obtain ⟨t, ht⟩ := exec_answers_next (.mul rd rs1 rs2) s
  have hprod : t.readReg rd = (alu .mul (s.readReg rs1) (s.readReg rs2)).y := Option.some.inj (exec_readReg_written ht rfl)
  have hflags : t.flags = (alu .mul (s.readReg rs1) (s.readReg rs2)).flags := exec_flags ht
  refine ⟨t, ht, ?_⟩
  rw [hprod, hflags, alu_z_iff, alu_n_iff, toNat_alu_mul_y]
  exact ⟨rfl, .rfl, .rfl, alu_mul_c_iff _ _, alu_mul_v_eq_c _ _, exec_pc_of_untaken ht rfl, exec_untouched ht nofun nofun⟩

/-- Settles O31: INC is the ALU's ADD of 1; `x + 1` passes 255 from 255 alone, and 127, signed, from 127 alone. -/
theorem incAddsOne : Obligations.IncAddsOne := by
  intro rx s
  obtain ⟨t, ht⟩ := exec_answers_next (.inc rx) s
  have hsum : t.readReg rx = (alu .add (s.readReg rx) 1).y := Option.some.inj (exec_readReg_written ht rfl)
  have hflags : t.flags = (alu .add (s.readReg rx) 1).flags := exec_flags ht
  have hone : (1 : Byte).toNat = 1 := rfl
  have hx := (s.readReg rx).isLt
  refine ⟨t, ht, ?_⟩
  rw [hsum, hflags, alu_z_iff, alu_n_iff, toNat_alu_add_y, alu_add_c_iff, hone]
  exact ⟨rfl, by omega, .rfl, by omega, alu_add_one_v_iff _, exec_pc_of_untaken ht rfl, exec_untouched ht nofun nofun⟩

/-- Settles O32: DEC is the ALU's SUB of 1; `x - 1` borrows from 0 alone, and passes -128, signed, from 128 alone. -/
theorem decSubtractsOne : Obligations.DecSubtractsOne := by
  intro rx s
  obtain ⟨t, ht⟩ := exec_answers_next (.dec rx) s
  have hdiff : t.readReg rx = (alu .sub (s.readReg rx) 1).y := Option.some.inj (exec_readReg_written ht rfl)
  have hflags : t.flags = (alu .sub (s.readReg rx) 1).flags := exec_flags ht
  have hone : (1 : Byte).toNat = 1 := rfl
  have hx := (s.readReg rx).isLt
  refine ⟨t, ht, ?_⟩
  rw [hdiff, hflags, alu_z_iff, alu_n_iff, toNat_alu_sub_y, alu_sub_c_iff, hone]
  exact ⟨rfl, by omega, .rfl, by omega, alu_sub_one_v_iff _, exec_pc_of_untaken ht rfl, exec_untouched ht nofun nofun⟩

/-- Settles O33: CMP leaves the flags of the ALU's SUB, which are those that SUB leaves whatever its destination. -/
theorem cmpWritesOnlyFlags : Obligations.CmpWritesOnlyFlags := by
  intro rx ry s
  obtain ⟨t, ht⟩ := exec_answers_next (.cmp rx ry) s
  have hflags : t.flags = (alu .sub (s.readReg rx) (s.readReg ry)).flags := exec_flags ht
  have hsub : ∀ rd, ∃ u, exec (.sub rd rx ry) s = .next u ∧ u.flags = t.flags := fun rd =>
    (exec_answers_next (.sub rd rx ry) s).imp fun _ hu => ⟨hu, (exec_flags hu).trans hflags.symm⟩
  refine ⟨t, ht, ?_, ?_, ?_, ?_, hsub, exec_pc_of_untaken ht rfl, exec_untouched ht nofun nofun⟩ <;> rw [hflags]
  · exact alu_sub_z_iff _ _
  · rw [alu_n_iff, toNat_alu_sub_y]
  · exact alu_sub_c_iff _ _
  · exact alu_sub_v_iff _ _

end Sys2Proof.Machine
end

section
/-! SUPPORT. What a jump leaves, by the branch resolver's `taken` (R200, R201), and the word of NOP (R207). -/

namespace Sys2Proof.Machine

variable {i : Instr} {line : Line}

/-- An instruction with a target writes no register and no flag, and neither loads nor stores. -/
theorem frame_of_target (ht : i.target? = some line) :
    writtenReg i = none ∧ flagDefining i = false ∧ i.mnemonic ≠ .load ∧ i.mnemonic ≠ .store := by
  cases i <;> cases ht <;> exact ⟨rfl, rfl, nofun, nofun⟩

/-- The whole meaning of a jump: its target or the next line by `taken`, and nothing else changed. -/
theorem exec_of_target (htarget : i.target? = some line) (s : State) :
    ∃ t, exec i s = .next t ∧ (branchTaken i s.flags = true → t.pc = line) ∧
      (branchTaken i s.flags = false → t.pc = s.pc + 1) ∧ t.flags = s.flags ∧ Untouched none s t := by
  obtain ⟨hreg, hflags, hload, hstore⟩ := frame_of_target htarget
  obtain ⟨t, ht⟩ := exec_answers_next i s
  have htaken (hb : branchTaken i s.flags = true) : t.pc = line :=
    Option.some.inj ((exec_pc_of_taken ht hb).symm.trans htarget)
  have hsame : t.flags = s.flags := (exec_flags ht).trans (flagsLeft_of_not_flagDefining hflags)
  exact ⟨t, ht, htaken, exec_pc_of_untaken ht, hsame, hreg ▸ exec_untouched ht hload hstore⟩

theorem decode_nop (plen : Byte) : decode 0xE000 plen = .ok .nop :=
  have hword : encode .nop = 0xE000 := rfl
  hword ▸ decode_encode rfl

end Sys2Proof.Machine
end

section
/-! SUPPORT. The statements about control flow settled. -/

namespace Sys2Proof.Machine

/-- Settles O37: JMP is the jump that is taken whatever the flags. -/
theorem jmpGoesToItsLine : Obligations.JmpGoesToItsLine := by
  intro line s
  obtain ⟨t, ht, htaken, -, hframe⟩ := exec_of_target (i := .jmp line) rfl s
  exact ⟨t, ht, htaken rfl, hframe⟩

/-- Settles O38: `taken` is Z for JZ, C for JC and N for JN; for JNZ it is not Z, so there the two ways change places. -/
theorem conditionalJumpsFollowTheirFlag : Obligations.ConditionalJumpsFollowTheirFlag := by
  intro line s
  refine ⟨exec_of_target rfl s, ?_, exec_of_target rfl s, exec_of_target rfl s⟩
  obtain ⟨t, ht, htaken, huntaken, hframe⟩ := exec_of_target (i := .jnz line) rfl s
  have hnot : branchTaken (.jnz line) s.flags = !s.flags.z := rfl
  rw [hnot, Bool.not_eq_true'] at htaken
  rw [hnot, Bool.not_eq_false'] at huntaken
  exact ⟨t, ht, htaken, huntaken, hframe⟩

/-- Settles O39: NOP only advances the pc, so a whole step of it changes that and what the fetch latches. -/
theorem nopOnlyAdvances : Obligations.NopOnlyAdvances := by
  constructor
  · intro s
    obtain ⟨t, ht⟩ := exec_answers_next .nop s
    exact ⟨t, ht, exec_pc_of_untaken ht rfl, exec_flags ht, exec_untouched ht nofun nofun⟩
  · intro s hpc hword
    have hd : decode s.fetchWord s.plen = .ok .nop := hword ▸ decode_nop s.plen
    calc step s = exec .nop (s.latchFetch s.fetchWord) := step_of_ok (halted_eq_false_iff.2 hpc) hd
      _ = exec .nop (s.latchFetch 0xE000) := by rw [hword]
      _ = .next { s with pc := s.pc + 1, ir := 0xE000, abus := s.pc, cbus := .fetch } := rfl

end Sys2Proof.Machine
end

section
/-! SUPPORT. Priority among the checks of a step, and the statements about exceptions settled (R222, R224). -/

namespace Sys2Proof

/-- A word of a row passes decode when the target check does not apply to it or holds (R99, R101). -/
theorem decode_withFields {m : Mnemonic} {w : Word} {plen : Byte} (hrow : m.encodedBy w = true)
    (htarget : ¬(m.format = .j ∧ plen.toNat ≤ (line8Of w).toNat)) : decode w plen = .ok (m.withFields w) := by
  refine decode_eq_ok_iff.2 ⟨decodeWord_of_encodedBy hrow, wellFormedFor_iff.2 fun line hline => ?_⟩
  rw [target_withFields] at hline
  split at hline
  · next hj =>
    cases hline
    exact Nat.lt_of_not_le fun hplen => htarget ⟨hj, hplen⟩
  · cases hline

end Sys2Proof

namespace Sys2Proof.Machine

/-- Settles O50: no step faults on a valid program, and each keeps the program, so induction on the number of steps gives
every run its next state. -/
theorem validProgramsNeverFault : Obligations.ValidProgramsNeverFault :=
  fun _ hvalid => hvalid.safeRun

/-- Settles O6: each check decides the result by the lemma about decode for its own case; the later checks are only
reached under the negations of the earlier ones. -/
theorem checksRunInPriorityOrder : Obligations.ChecksRunInPriorityOrder := by
  refine ⟨fun s => ⟨fun hpc => result_of_halted (halted_eq_true_iff.2 hpc), fun hpc => ?_⟩, rfl⟩
  have hh : s.halted = false := halted_eq_false_iff.2 hpc
  constructor
  · intro hop
    exact result_of_error hh (decode_of_decodeWord_error (decodeWord_eq_illegalOpcode_iff.2 hop))
  intro m hop
  constructor
  · intro hreserved
    exact result_of_error hh (decode_of_decodeWord_error (decodeWord_eq_reservedBits_iff.2 ⟨m, hop, hreserved⟩))
  intro hclean
  have hrow : m.encodedBy s.fetchWord = true := encodedBy_iff.2 ⟨hop, hclean⟩
  constructor
  · rintro ⟨hj, hplen⟩
    exact result_of_error hh (decode_eq_badTarget hj hrow hplen)
  · intro htarget
    exact result_of_ok hh (decode_withFields hrow htarget)

end Sys2Proof.Machine
end

section
/-! SUPPORT. The boot: the load writes the program, the reset writes S, and neither writes the other's part (R255). -/

namespace Sys2Proof.Machine

variable {s t : State} {words : List Word}

/-- A load of too many words has no transition, before the reset or after it. -/
theorem boot_eq_loadProgram_hostReset (s : State) (words : List Word) :
    s.boot words = s.hostReset.loadProgram words := by
  rw [State.boot, State.loadProgram, State.loadProgram]
  by_cases hlen : words.length ≤ Config.maxProgLen
  · simp only [if_pos hlen, Option.map_some, State.hostReset]
  · simp only [if_neg hlen, Option.map_none]

theorem loadProgram_of_boot (h : s.boot words = some t) : s.hostReset.loadProgram words = some t :=
  (boot_eq_loadProgram_hostReset s words).symm.trans h

/-- The entry point of R251: after the boot the pc is at line 0. -/
theorem boot_pc (h : s.boot words = some t) : t.pc = 0 :=
  congrArg ArchState.pc (loadProgram_hostRead (loadProgram_of_boot h))

theorem boot_fetchWord {w : Word} (h : s.boot words = some t) (hw : words[0]? = some w) : t.fetchWord = w := by
  rw [State.fetchWord, boot_pc h]
  exact loadProgram_read (loadProgram_of_boot h) hw

theorem boot_nil_result (h : s.boot [] = some t) : t.result = .halted := by
  have hplen : t.plen.toNat = 0 := loadProgram_plen (loadProgram_of_boot h)
  exact result_of_halted (halted_eq_true_iff.2 (hplen ▸ Nat.zero_le _))

/-- Settles O42: the load commutes with the reset, so a boot is a load from the reset state; its pc is 0, where line 0 holds
the first word, and PLEN is 0 where there is none. -/
theorem bootOrderDoesNotMatter : Obligations.BootOrderDoesNotMatter := by
  intro s words
  refine ⟨boot_eq_loadProgram_hostReset s words, ?_, ?_⟩
  · rintro t w rest rfl hboot
    exact boot_fetchWord hboot rfl
  · rintro t rfl hboot
    exact boot_nil_result hboot

end Sys2Proof.Machine
end

section
/-! SUPPORT. What validation lists, and when assembly answers it (R119). -/

namespace Sys2Proof

variable {plen k : Nat} {line src : List Char} {kind : ErrorKind} {errors : List ErrorKind}

theorem parseErrors_of_error (h : parseLine plen line = .error errors) : parseErrors plen line = errors := by
  rw [parseErrors, h]

/-- The capacity check adds an error of range to those of the line itself, and removes none. -/
theorem mem_lineErrors_iff : kind ∈ lineErrors plen k line ↔
    kind ∈ parseErrors plen line ∨ (Config.maxProgLen ≤ k ∧ kind = .operandRange) := by
  unfold lineErrors
  split
  · next hadded => simp [hadded.1]
  · next hkept =>
    refine ⟨.inl, ?_⟩
    rintro (hparse | ⟨hk, rfl⟩)
    · exact hparse
    · by_contra hrange
      exact hkept ⟨hk, hrange⟩

theorem mem_validate_iff : { line := k, kind := kind } ∈ validate src ↔
    ∃ l, (instructionLines src)[k]? = some l ∧ kind ∈ lineErrors (instructionLines src).length k l := by
  simp only [validate, List.mem_flatMap, List.mem_map, ValidationError.mk.injEq]
  constructor
  · rintro ⟨⟨l, _⟩, hl, _, hkind, rfl, rfl⟩
    exact ⟨l, List.mem_zipIdx_iff_getElem?.1 hl, hkind⟩
  · rintro ⟨l, hl, hkind⟩
    exact ⟨(l, k), List.mem_zipIdx_iff_getElem?.2 hl, kind, hkind, rfl, rfl⟩

theorem assemble_eq_error_iff {errors : List ValidationError} :
    assemble src = .error errors ↔ validate src = errors ∧ errors ≠ [] := by
  unfold assemble
  split
  · next hnone =>
    rw [hnone]
    exact ⟨nofun, fun ⟨hnil, hne⟩ => absurd hnil.symm hne⟩
  · next hsome =>
    rw [Except.error.injEq]
    exact ⟨fun heq => ⟨heq, heq ▸ hsome⟩, And.left⟩

/-- Settles O55: a listed error is one of its line, and the errors of a line are those of its parse and, past the capacity,
one of range. -/
theorem validationListsEveryError : Obligations.ValidationListsEveryError := by
  intro src
  refine ⟨fun _ _ => mem_validate_iff, fun _ => assemble_eq_error_iff, ?_, ?_⟩
  · intro k line hline hk
    exact mem_validate_iff.2 ⟨line, hline, mem_lineErrors_iff.2 (.inr ⟨hk, rfl⟩)⟩
  · intro k line errors kind hline herrors hkind
    have hparse : kind ∈ parseErrors (instructionLines src).length line := parseErrors_of_error herrors ▸ hkind
    exact mem_validate_iff.2 ⟨line, hline, mem_lineErrors_iff.2 (.inl hparse)⟩

end Sys2Proof
end
